-- ==== Sys2Proof/Word.lean ====
section
/-!
DEFINITION. The word types of GPA-FRA (spec/00_scope.md R8).
-/

namespace Sys2Proof

/-- `u8` of 00_scope.md R8: one byte of the frame store, of an operand or of a payload. -/
abbrev Byte := BitVec 8

/-- The 10-bit command word `cmd` of 30_encoding.md R45. -/
abbrev CmdWord := BitVec 10

end Sys2Proof
end

