-- ==== Sys2Proof/Syntax.lean ====
section
/-!
DEFINITION. The commands of GPA-FRA, one constructor per row of spec/opcode_table.json.
-/

namespace Sys2Proof

/-- One command, as `cmd[9:8]` selects it (30_encoding.md R45, R51). The bits a command ignores are kept in the term, so
that no bit of an encoding is lost; no meaning reads them (log entry 15). -/
inductive Instr where
  /-- `IDLE` (40_ingest.md R56); its `data` is ignored (30_encoding.md R52). -/
  | idle (ignored : Byte)
  /-- `PUSH b` (40_ingest.md R57): the received serial byte. -/
  | push (b : Byte)
  /-- `REQ req_id` (41_synthesis.md R62): the requested report identifier; 0 = none supplied. -/
  | req (reqId : Byte)
  /-- The reserved class `op == 0b11` (30_encoding.md R46). -/
  | reserved (ignored : Byte)
  deriving DecidableEq, Repr

end Sys2Proof
end

