-- ==== Sys2Proof/WellFormed.lean ====
section
/-!
DEFINITION. Which commands an integrator may issue. Operand widths are checked by the types of Instr; the identifiers'
constraint (00_scope.md R7) is `legalIds` in Config.lean.
-/

namespace Sys2Proof

/-- "Every command is legal at all times, except the reserved class" (60_exceptions.md R86; 30_encoding.md R46:
"Integrators must never issue one"). -/
def Instr.wf : Instr → Bool
  | .idle _ => true
  | .push _ => true
  | .req _ => true
  | .reserved _ => false

end Sys2Proof
end

