-- ==== Sys2Proof/Decode.lean ====
section
/-!
DEFINITION. The decoder of the command word (spec/30_encoding.md R45 to R52), and after it the encoder, written from the
same table of R45.
-/

namespace Sys2Proof

/-- The field `op` = `cmd[9:8]` (30_encoding.md R45). -/
def opField (w : CmdWord) : BitVec 2 := w.extractLsb' 8 2

/-- The field `data` = `cmd[7:0]` (30_encoding.md R45). Operand assembly: an unsigned byte as it is, nothing
sign-extended or shifted (R47). -/
def dataField (w : CmdWord) : Byte := w.extractLsb' 0 8

/-- The word with the given `op` and `data`, `{op, data}` in the notation of 00_scope.md R8. -/
def cmdWord (op : BitVec 2) (data : Byte) : CmdWord := op ++ data

/-- "A decoder reads `cmd[9:8]` and dispatches on it; the `data` field never changes which operation is selected"
(30_encoding.md R51). Total on all 1024 words. -/
def decode (w : CmdWord) : Instr :=
  if opField w = 0b00#2 then .idle (dataField w)
  else if opField w = 0b01#2 then .push (dataField w)
  else if opField w = 0b10#2 then .req (dataField w)
  else .reserved (dataField w)

/-- Why a number is no command word. -/
inductive DecodeError where
  /-- It has a bit at or above bit 10: `cmd` is 10 bits wide (30_encoding.md R44). Log entry 13. -/
  | widerThanCommandPort
  deriving DecidableEq, Repr

/-- The decoder on a number: it rejects, by name, what does not fit the command port. -/
def decodeNat (w : Nat) : Except DecodeError Instr :=
  if w < 1024 then .ok (decode (BitVec.ofNat 10 w)) else .error .widerThanCommandPort

/-- The command in the low `nbits` bits of `w`, numbered as spec/opcode_table.json numbers them (bit 0 the least
significant bit of the one word). Log entry 13. -/
def tableWord (nbits w : Nat) : Nat := w % 2 ^ nbits

/-- The instruction the decoder reads from a word of spec/opcode_table.json. -/
def decodeTableWord (nbits w : Nat) : Option Instr :=
  match decodeNat (tableWord nbits w) with
  | .ok i => some i
  | .error _ => none

/-- The operation code of each command (30_encoding.md R45). -/
def Instr.op : Instr → BitVec 2
  | .idle _ => 0b00#2
  | .push _ => 0b01#2
  | .req _ => 0b10#2
  | .reserved _ => 0b11#2

/-- The data byte of each command. -/
def Instr.data : Instr → Byte
  | .idle d => d
  | .push b => b
  | .req rid => rid
  | .reserved d => d

/-- The command word of an instruction (30_encoding.md R45, R53). -/
def encode (i : Instr) : CmdWord := cmdWord i.op i.data

/-- `mask` of every row of spec/opcode_table.json. -/
def tableMask : CmdWord := 0x300#10

/-- `match` of the instruction's row of spec/opcode_table.json. -/
def Instr.tableMatch : Instr → CmdWord
  | .idle _ => 0x000#10
  | .push _ => 0x100#10
  | .req _ => 0x200#10
  | .reserved _ => 0x300#10

end Sys2Proof
end

