-- ==== Sys2Proof/Config.lean ====
section
/-!
DEFINITION. The implementation parameters of GPA-FRA (spec/00_scope.md R6, R7). They are constants of the block and not
state (10_state.md R26).
-/

namespace Sys2Proof

/-- The constraint 00_scope.md R7 puts on the two report identifiers: both non-zero, and distinct. -/
def legalIds (idA idB : Byte) : Bool :=
  idA != 0#8 && idB != 0#8 && idA != idB

/-- The two report identifiers, "value A" and "value B" of the source, with the proof that they are legal
(00_scope.md R6, R7; 92_eei_decisions.md D7). The defaults are the instantiation of 95_test_vectors.md; they only show
that a legal pair exists, and no definition of the model uses them. -/
structure ReportIds where
  idA : Byte := 0x01#8
  idB : Byte := 0x02#8
  legal : legalIds idA idB = true := by decide
  deriving DecidableEq, Repr, Inhabited

/-- The parameters of 00_scope.md R6 that the spec lets a model take as an argument: the report identifiers (OPEN) and
`DZ_INNER_ZERO` (42_stick_normalizer.md R76). -/
structure Params where
  ids : ReportIds
  dzInnerZero : Bool
  deriving DecidableEq, Repr

/-- `ID_A`, the identifier of the simple-pad layout. -/
def Params.idA (p : Params) : Byte := p.ids.idA

/-- `ID_B`, the identifier of the dual-stick layout. -/
def Params.idB (p : Params) : Byte := p.ids.idB

namespace Config

/-- `ID_A` and `ID_B`. OPEN in 00_scope.md R6: no source gives their numbers, so nothing in Lean can evaluate them, and
a claim holds for every legal pair. Log entry 5. -/
opaque reportIds : ReportIds

/-- The parameters of the block the model runs: the open identifiers, and the normative `DZ_INNER_ZERO = false` of
00_scope.md R6 (90_conflicts.md C1, 92_eei_decisions.md D14). Log entries 5 and 6. -/
def params : Params := { ids := reportIds, dzInnerZero := false }

/-- `CENTER` of 00_scope.md R6. Log entry 11. -/
abbrev center : Int := 128

/-- `DEADZONE` of 00_scope.md R6. Log entry 11. -/
abbrev deadzone : Int := 28

/-- `SIMPLE_LEN` of 00_scope.md R6, in the width of `rsp_len`. Log entry 11. -/
abbrev simpleLen : BitVec 3 := 2#3

/-- `DUAL_LEN` of 00_scope.md R6, in the width of `rsp_len`. Log entry 11. -/
abbrev dualLen : BitVec 3 := 7#3

/-- `ID_NEUTRAL` of 00_scope.md R6, the reset value of `last_id` (10_state.md R27). -/
abbrev idNeutral : Byte := 0x00#8

/-- What an index of the frame store holds when nothing has written it since reset: 10_state.md R27 sets every byte of
`Frame` to 0x00. -/
abbrev frameReset : Byte := 0x00#8

end Config
end Sys2Proof
end

