-- ==== Sys2Proof/Machine/State.lean ====
section
/-!
DEFINITION. The state of GPA-FRA (spec/10_state.md R13), the two ports beside it, and why the machine may stop.
-/

namespace Sys2Proof.Machine

/-- The frame store, the block's only storage (20_memory.md R30): the list of the bytes that differ from
`Config.frameReset`, by rising index. Log entry 8. -/
abbrev Memory := List Host.Cell

/-- What the integrator drives on the two input ports in one step (30_encoding.md R44). -/
structure PortSample where
  /-- `rst`: 1 = reset this step. -/
  rst : Bool
  /-- `cmd`: the command word. -/
  cmd : CmdWord
  deriving DecidableEq, Repr

/-- The response status (30_encoding.md R49). -/
inductive Status where
  /-- 0b00 `NONE`: no request this step. -/
  | none
  /-- 0b01 `OK`: a report is produced. -/
  | ok
  /-- 0b10 `NOT_READY`: the source's NotReady / FrameIncomplete. -/
  | notReady
  /-- 0b11 `UNRECOGNIZED`: the source's "unrecognized report identifier". -/
  | unrecognized
  deriving DecidableEq, Repr

/-- The response bundle of one step (30_encoding.md R48). -/
structure Response where
  /-- `rsp_status`. -/
  status : Status
  /-- `rsp_id`: report identifier of a produced report. -/
  id : Byte
  /-- `rsp_len`: payload length in bytes. -/
  len : BitVec 3
  /-- `rsp_payload`: payload bytes 0..6. -/
  payload : Vector Byte 7
  deriving DecidableEq, Repr

/-- The response whose fields but the status are all zero (30_encoding.md R50). -/
def Response.empty (st : Status) : Response :=
  { status := st, id := 0#8, len := 0#3, payload := #v[0#8, 0#8, 0#8, 0#8, 0#8, 0#8, 0#8] }

/-- The state of the machine. `frame`, `cnt`, `lastId` and `led` are the tuple `S` of 10_state.md R13. `inputs` and `rsp`
are the block's ports (30_encoding.md R44), held here because a step of the host has no input and no output of its own
(log entries 1 and 2). -/
structure State where
  /-- `Frame[0..9]` (10_state.md R14). -/
  frame : Memory
  /-- `cnt`, the fill counter, 0..10 (10_state.md R18, R29). -/
  cnt : Fin 11
  /-- `last_id`, the last-identifier register (10_state.md R21). -/
  lastId : Byte
  /-- `led`, the activity indicator; true = on (10_state.md R22). -/
  led : Bool
  /-- The samples of `rst` and `cmd` still to come, this step's first. -/
  inputs : List PortSample
  /-- The response outputs that the last step drives. -/
  rsp : Response
  deriving DecidableEq, Repr

/-- The machine never faults: "no error stops the block" and it "takes no traps" (60_exceptions.md R81, R85), and the one
state for which 10_state.md R29 asks a fault (cnt in 11..15) is not representable. So there is no reason, and nobody
raises one (safe). Log entry 7. -/
inductive Fault where
  deriving DecidableEq, Repr

/-- Why the machine refuses a command. -/
inductive Refusal where
  /-- Raised by an arm of `exec` whose instruction has no meaning yet; no arm does (safe). -/
  | notModelled (mnemonic : String)
  /-- Raised by `execReserved`: a word with `op == 0b11`, of which 30_encoding.md R46 says "A model must refuse such a word
  instead of executing it" (safe: nothing can be proved of a stream that holds one). Log entry 4. -/
  | reservedCommand (data : Byte)
  deriving DecidableEq, Repr

/-- The state after a step with `rst == 1` (10_state.md R27, 70_reset_and_hazards.md R89), nothing driven yet. It is also
the launch state of the model (R90). Log entry 9. -/
def State.reset : State :=
  { frame := []
    cnt := 0
    lastId := Config.idNeutral
    led := false
    inputs := []
    rsp := Response.empty .none }

end Sys2Proof.Machine
end

