-- ==== Sys2Proof/Machine/Ops.lean ====
section
/-!
DEFINITION. The named operations over the frame store, the registers and the ports. The block takes no exception and
returns from none (spec/60_exceptions.md R85), so there is no operation for either.
-/

namespace Sys2Proof.Machine

namespace Memory

/-- `Frame[i]` of 00_scope.md R10: the byte at index `i`, `Config.frameReset` where the list names none. -/
def read : Memory → Fin 10 → Byte
  | [], _ => Config.frameReset
  | c :: m, i => if c.1 = i.val then c.2 else read m i

/-- Put a cell in its place by rising index. -/
def insertCell (c : Host.Cell) : Memory → Memory
  | [] => [c]
  | d :: m => if c.1 < d.1 then c :: d :: m else d :: insertCell c m

/-- The store without the byte at index `i`. -/
def eraseCell (m : Memory) (i : Fin 10) : Memory := m.filter (fun c => c.1 != i.val)

/-- `Frame[i] <- v` of 00_scope.md R10. Writing what an unlisted index reads as removes the entry. -/
def write (m : Memory) (i : Fin 10) (v : Byte) : Memory :=
  if v = Config.frameReset then eraseCell m i else insertCell (i.val, v) (eraseCell m i)

/-- The canonical form: indices strictly rising and inside 0..9, no entry equal to what an unlisted index reads as. -/
abbrev wf (m : Memory) : Prop :=
  m.Pairwise (fun c d => c.1 < d.1) ∧ ∀ c ∈ m, c.1 < 10 ∧ c.2 ≠ Config.frameReset

end Memory

/-- A sample of the canonical `IDLE` word (30_encoding.md R52). It is also what the ports carry when the listed inputs have
run out: the poll iteration "in which no byte is available" (00_scope.md R12, 40_ingest.md R56). Log entry 2. -/
def idleSample : PortSample := { rst := false, cmd := 0x000#10 }

namespace State

/-- Write one byte of the frame store. -/
def storeByte (s : State) (i : Fin 10) (v : Byte) : State := { s with frame := s.frame.write i v }

/-- `cnt <- c`. -/
def setCnt (s : State) (c : Fin 11) : State := { s with cnt := c }

/-- `last_id <- v`. -/
def setLastId (s : State) (v : Byte) : State := { s with lastId := v }

/-- `led <- v`. -/
def setLed (s : State) (v : Bool) : State := { s with led := v }

/-- `respond(…)` of 00_scope.md R10: drive the step's response outputs. -/
def respond (s : State) (r : Response) : State := { s with rsp := r }

/-- The sample of `rst` and `cmd` this step takes (00_scope.md R11). -/
def presented (s : State) : PortSample :=
  match s.inputs with
  | [] => idleSample
  | x :: _ => x

/-- This step's sample is taken; the next one comes to the ports. -/
def popInput (s : State) : State := { s with inputs := s.inputs.tail }

/-- The integrator drives `x` in the coming step, before whatever was to come. -/
def drive (s : State) (x : PortSample) : State := { s with inputs := x :: s.inputs }

/-- A step with `rst == 1`: every state element at its reset value and response NONE (70_reset_and_hazards.md R89, 10_state.md
R27). What the integrator will drive later stays. -/
def resetBlock (s : State) : State := { State.reset with inputs := s.inputs }

end State

/-- The codes of 30_encoding.md R49. -/
def Status.code : Status → BitVec 2
  | .none => 0b00#2
  | .ok => 0b01#2
  | .notReady => 0b10#2
  | .unrecognized => 0b11#2

namespace Response

/-- The 56 wires of `rsp_payload`: "byte j is `rsp_payload[8j+7:8j]`" (30_encoding.md R44). -/
def payloadPort (r : Response) : BitVec 56 :=
  r.payload[6] ++ r.payload[5] ++ r.payload[4] ++ r.payload[3] ++ r.payload[2] ++ r.payload[1] ++ r.payload[0]

/-- The bundle `{rsp_status[1:0], rsp_id[7:0], rsp_len[2:0], rsp_payload[55:0]}` of 30_encoding.md R48. -/
def bundle (r : Response) : BitVec 69 :=
  r.status.code ++ r.id ++ r.len ++ r.payloadPort

end Response
end Sys2Proof.Machine
end

