-- ==== Sys2Proof/Machine/Operands.lean ====
section
/-!
DEFINITION. The operand forms: the index PUSH writes through the implicit pointer `cnt` (spec/40_ingest.md R57) and the
fixed indices REQ reads (spec/41_synthesis.md R65, R66). An immediate operand is `dataField` in Decode.lean (30_encoding.md
R47).
-/

namespace Sys2Proof.Machine

/-- `idx = (cnt == 10) ? 0 : cnt` (40_ingest.md R57). -/
def pushIndex (cnt : Fin 11) : Fin 10 :=
  if h : cnt.val < 10 then ⟨cnt.val, h⟩ else 0

/-- `cnt <- idx + 1` (40_ingest.md R57): 0..9 to 1..10, and 10 to 1 (10_state.md R29). -/
def cntAfterPush (cnt : Fin 11) : Fin 11 := (pushIndex cnt).succ

end Sys2Proof.Machine
end

