-- ==== Sys2Proof/Machine/Ingest.lean ====
section
/-!
DEFINITION. The ingest family: IDLE and PUSH (spec/40_ingest.md).
-/

namespace Sys2Proof.Machine

/-- A step that only responds NONE (40_ingest.md R56). -/
def quiet (s : State) : State := s.respond (Response.empty .none)

/-- `IDLE` (40_ingest.md R56): no state change. -/
def execIdle (s : State) : Host.Outcome State Fault Refusal := .next (quiet s)

/-- The effect of receiving one serial byte (40_ingest.md R57, R60). -/
def pushByte (b : Byte) (s : State) : State :=
  ((((s.setLed true).storeByte (pushIndex s.cnt) b).setCnt (cntAfterPush s.cnt))).respond (Response.empty .none)

/-- `PUSH b` (40_ingest.md R57): it never fails. -/
def execPush (b : Byte) (s : State) : Host.Outcome State Fault Refusal := .next (pushByte b s)

end Sys2Proof.Machine
end

