-- ==== Sys2Proof/Machine/Reserved.lean ====
section
/-!
DEFINITION. The reserved command class (spec/30_encoding.md R46).
-/

namespace Sys2Proof.Machine

/-- A word with `op == 0b11`: "A model must refuse such a word instead of executing it: it records a refusal and gives the
command stream no meaning" (30_encoding.md R46, 92_eei_decisions.md D4). What conforming hardware does is `blockStep`
in Block.lean. Log entry 4. -/
def execReserved (data : Byte) (_s : State) : Host.Outcome State Fault Refusal :=
  .refused (.reservedCommand data)

end Sys2Proof.Machine
end

