-- ==== Sys2Proof/Machine/Flags.lean ====
section
/-!
DEFINITION. The conditions derived from the state. The block has no flag register (spec/10_state.md R23).
-/

namespace Sys2Proof.Machine

/-- Ready: "the condition `cnt == 10`. It is not a stored flag" (10_state.md R17). -/
def State.ready (s : State) : Bool := s.cnt == 10

/-- The synthesizer's two states (10_state.md R19). -/
inductive Phase where
  | awaitingFrame
  | frameReady
  deriving DecidableEq, Repr

/-- `Phase(S)` of 10_state.md R19. -/
def State.phase (s : State) : Phase := if s.cnt = 10 then .frameReady else .awaitingFrame

/-- The `led` output, equal to the state `led`; 1 means on (30_encoding.md R44, 10_state.md R22). -/
def State.ledPort (s : State) : BitVec 1 := BitVec.ofBool s.led

/-- The register `cnt` as its four bits: "the binary value of the count" (10_state.md R18). -/
def State.cntBits (s : State) : BitVec 4 := BitVec.ofNat 4 s.cnt.val

end Sys2Proof.Machine
end

