-- ==== Sys2Proof/Machine/Normalizer.lean ====
section
/-!
DEFINITION. The analog-stick axis normalizer, a pure function (spec/42_stick_normalizer.md R73).
-/

namespace Sys2Proof.Machine

/-- `NORM(raw)` of 42_stick_normalizer.md R73, on integers. `dzInnerZero` is the parameter `DZ_INNER_ZERO` (R76). -/
def norm (dzInnerZero : Bool) (raw : Byte) : Int :=
  let c : Int := (raw.toNat : Int) - Config.center
  if Config.deadzone ≤ c then c - Config.deadzone
  else if c ≤ -Config.deadzone then c + Config.deadzone
  else if dzInnerZero then 0
  else c

/-- `s8(v) = v mod 256`, the two's-complement byte (00_scope.md R9). Log entry 10. -/
def s8 (v : Int) : Byte := BitVec.ofInt 8 v

/-- `int_s8(b)`, its inverse (00_scope.md R9). -/
def intS8 (b : Byte) : Int := b.toInt

/-- The payload byte of one axis: `s8(NORM(raw))` (41_synthesis.md R66). -/
def axisByte (dzInnerZero : Bool) (raw : Byte) : Byte := s8 (norm dzInnerZero raw)

end Sys2Proof.Machine
end

