-- ==== Sys2Proof/Machine/Synthesis.lean ====
section
/-!
DEFINITION. The synthesis family: REQ (spec/41_synthesis.md).
-/

namespace Sys2Proof.Machine

/-- `ResolveId(req_id, last)` of 41_synthesis.md R64. -/
def resolveId (p : Params) (reqId last : Byte) : Byte :=
  if reqId = 0#8 then (if last = p.idA then p.idB else p.idA) else reqId

/-- Layout A, the simple pad: direction, buttons (41_synthesis.md R65). -/
def layoutA (m : Memory) : Vector Byte 7 := #v[m.read 0, m.read 1, 0#8, 0#8, 0#8, 0#8, 0#8]

/-- Layout B, the dual stick: direction, two button bytes, left X, left Y, right X, right Y (41_synthesis.md R66). -/
def layoutB (dzInnerZero : Bool) (m : Memory) : Vector Byte 7 :=
  #v[m.read 2, m.read 3, m.read 4, axisByte dzInnerZero (m.read 5), axisByte dzInnerZero (m.read 6),
     axisByte dzInnerZero (m.read 7), axisByte dzInnerZero (m.read 8)]

/-- The produced report for layout A. -/
def reportA (p : Params) (m : Memory) : Response :=
  { status := .ok, id := p.idA, len := Config.simpleLen, payload := layoutA m }

/-- The produced report for layout B. -/
def reportB (p : Params) (m : Memory) : Response :=
  { status := .ok, id := p.idB, len := Config.dualLen, payload := layoutB p.dzInnerZero m }

/-- What a ready REQ answers once its identifier is resolved and recorded (41_synthesis.md R65 to R68). -/
def answer (p : Params) (id : Byte) (s : State) : State :=
  if id = p.idA then (s.setLed false).respond (reportA p s.frame)
  else if id = p.idB then (s.setLed false).respond (reportB p s.frame)
  else s.respond (Response.empty .unrecognized)

/-- The effect of `REQ req_id` on a block with the parameters `p` (41_synthesis.md R62). The gate is tested first, and a
request that it stops changes no state (R63; log entry 14). -/
def request (p : Params) (reqId : Byte) (s : State) : State :=
  if s.ready then answer p (resolveId p reqId s.lastId) (s.setLastId (resolveId p reqId s.lastId))
  else s.respond (Response.empty .notReady)

/-- `REQ req_id` (41_synthesis.md R62) of the block the model runs. -/
def execReq (reqId : Byte) (s : State) : Host.Outcome State Fault Refusal :=
  .next (request Config.params reqId s)

end Sys2Proof.Machine
end

