-- ==== Sys2Proof/Machine/Dispatch.lean ====
section
/-!
DEFINITION. One arm per command.
-/

namespace Sys2Proof.Machine

def exec (i : Instr) (s : State) : Host.Outcome State Fault Refusal :=
  match i with
  | .idle _ => Sys2Proof.Machine.execIdle s
  | .push b => Sys2Proof.Machine.execPush b s
  | .req reqId => Sys2Proof.Machine.execReq reqId s
  | .reserved data => Sys2Proof.Machine.execReserved data s

end Sys2Proof.Machine
end

