-- ==== Sys2Proof/Machine/Step.lean ====
section
/-!
DEFINITION. One step of the machine (spec/00_scope.md R11).
-/

namespace Sys2Proof.Machine

/-- One step: it samples `rst` and `cmd`; "Reset takes priority over every command. A step with `rst == 0` executes `cmd`"
(70_reset_and_hazards.md R89). -/
def step (s : State) : Host.Outcome State Fault Refusal :=
  if s.presented.rst then .next s.popInput.resetBlock
  else exec (decode s.presented.cmd) s.popInput

/-- `s` with the command of a table word on the port in the coming step, in place of what the integrator was to drive
there, and `rst` low. The block fetches nothing (10_state.md R23): the command port is where a step finds its command. Log
entries 3 and 13. -/
def State.withFetchWord (s : State) (nbits w : Nat) : State :=
  { s with inputs := { rst := false, cmd := BitVec.ofNat 10 (tableWord nbits w) } :: s.inputs.tail }

end Sys2Proof.Machine
end

