-- ==== Sys2Proof/Machine/Run.lean ====
section
/-!
DEFINITION. A run under an input stream: "a model therefore takes the interleaving as an input and quantifies over it"
(spec/70_reset_and_hazards.md R95).
-/

namespace Sys2Proof.Machine

/-- The outcome of driving the samples `xs`, one a step, in order (20_memory.md R39). -/
def feed : State → List PortSample → Host.Outcome State Fault Refusal
  | s, [] => .next s
  | s, x :: xs =>
    match step (s.drive x) with
    | .next t => feed t xs
    | .fault r => .fault r
    | .refused r => .refused r

/-- The responses the block drives while the samples `xs` are driven, one a step, up to a refusal. -/
def responses : State → List PortSample → List Response
  | _, [] => []
  | s, x :: xs =>
    match step (s.drive x) with
    | .next t => t.rsp :: responses t xs
    | .fault _ => []
    | .refused _ => []

/-- The identifiers of the reports produced along a run, in order. -/
def emittedIds (s : State) (xs : List PortSample) : List Byte :=
  ((responses s xs).filter (fun r => r.status == .ok)).map (·.id)

/-- The byte a sample delivers, if it is a PUSH. -/
def pushedByte (x : PortSample) : Option Byte :=
  if x.rst then none else
    match decode x.cmd with
    | .push b => some b
    | .idle _ => none
    | .req _ => none
    | .reserved _ => none

/-- The bytes a stream delivers, in order. -/
def pushedBytes (xs : List PortSample) : List Byte := xs.filterMap pushedByte

/-- A sample of the command `i`. -/
def cmdSample (i : Instr) : PortSample := { rst := false, cmd := encode i }

end Sys2Proof.Machine
end

