-- ==== Sys2Proof/Machine/Assembler.lean ====
section
/-!
DEFINITION. The assembly syntax of command streams (spec/30_encoding.md R53 to R55): a function from a line of characters to
the samples it stands for, or to the reason it is rejected. Log entry 12.
-/

namespace Sys2Proof.Machine

/-- Why the assembler rejects a line (30_encoding.md R55). -/
inductive AsmError where
  /-- "an unknown mnemonic". -/
  | unknownMnemonic
  /-- An operand that is no decimal and no hexadecimal number (R53); a negative one is outside 0..255 and comes here, since
  the syntax of R53 has no sign. -/
  | malformedNumber
  /-- "an operand outside 0..255", of any command that takes a number. -/
  | operandOutOfRange
  /-- "a `FRAME` with a number of operands other than ten". -/
  | frameOperandCount
  /-- Another command with more or fewer operands than its syntax shows (R53, R54). -/
  | wrongOperandCount
  deriving DecidableEq, Repr

/-- One accepted line: the commands of R53 and the pseudo-instructions of R54. -/
inductive AsmLine where
  | idle
  | push (b : Byte)
  | req (id : Byte)
  | reqAuto
  | reqA
  | reqB
  | frame (bs : List Byte)
  | wait (n : Nat)
  | reset
  deriving DecidableEq, Repr

/-- `RESET`: one step with `rst = 1` and `cmd = 0x000` (R54). -/
def resetSample : PortSample := { rst := true, cmd := 0x000#10 }

/-- The samples a line stands for: R53's words, R54's expansions. -/
def AsmLine.expand (p : Params) : AsmLine → List PortSample
  | .idle => [cmdSample (.idle 0#8)]
  | .push b => [cmdSample (.push b)]
  | .req id => [cmdSample (.req id)]
  | .reqAuto => [cmdSample (.req 0#8)]
  | .reqA => [cmdSample (.req p.idA)]
  | .reqB => [cmdSample (.req p.idB)]
  | .frame bs => bs.map (fun b => cmdSample (.push b))
  | .wait n => List.replicate n (cmdSample (.idle 0#8))
  | .reset => [resetSample]

/-- A space or a tab. -/
def isBlank (c : Char) : Bool := c == ' ' || c == '\t'

/-- "`;` starts a comment" (R53). -/
def stripComment (l : List Char) : List Char := l.takeWhile (fun c => c != ';')

/-- The line without blanks at its two ends. -/
def trimBlanks (l : List Char) : List Char :=
  ((l.dropWhile isBlank).reverse.dropWhile isBlank).reverse

/-- The pieces between commas. -/
def splitCommas : List Char → List (List Char)
  | [] => [[]]
  | c :: cs =>
    if c == ',' then [] :: splitCommas cs
    else
      match splitCommas cs with
      | [] => [[c]]
      | w :: ws => (c :: w) :: ws

/-- The operands after a mnemonic, separated by commas as R54 writes them. -/
def operandTexts (rest : List Char) : List (List Char) :=
  match trimBlanks rest with
  | [] => []
  | c :: cs => (splitCommas (c :: cs)).map trimBlanks

/-- A digit of the given base, 10 or 16. -/
def digitValue (base : Nat) (c : Char) : Option Nat :=
  let n := c.toNat
  let v : Option Nat :=
    if 48 ≤ n ∧ n ≤ 57 then some (n - 48)
    else if 65 ≤ n ∧ n ≤ 70 then some (n - 55)
    else if 97 ≤ n ∧ n ≤ 102 then some (n - 87)
    else none
  match v with
  | some d => if d < base then some d else none
  | none => none

/-- The number the digits spell, after those already read. -/
def digitsFrom (base : Nat) : Nat → List Char → Option Nat
  | acc, [] => some acc
  | acc, c :: cs =>
    match digitValue base c with
    | some d => digitsFrom base (base * acc + d) cs
    | none => none

/-- "A number is decimal (`0`..`255`) or hexadecimal (`0x00`..`0xFF`)" (R53). -/
def parseNumber : List Char → Option Nat
  | '0' :: 'x' :: d :: ds => digitsFrom 16 0 (d :: ds)
  | c :: cs => digitsFrom 10 0 (c :: cs)
  | [] => none

/-- A byte operand: R55 rejects one outside 0..255. -/
def byteOperand (l : List Char) : Except AsmError Byte :=
  match parseNumber l with
  | none => .error .malformedNumber
  | some n => if n < 256 then .ok (BitVec.ofNat 8 n) else .error .operandOutOfRange

/-- Every operand a byte. -/
def byteOperands : List (List Char) → Except AsmError (List Byte)
  | [] => .ok []
  | l :: ls =>
    match byteOperand l with
    | .error e => .error e
    | .ok b =>
      match byteOperands ls with
      | .error e => .error e
      | .ok bs => .ok (b :: bs)

/-- A line without operands. -/
def noOperand (line : AsmLine) : List (List Char) → Except AsmError AsmLine
  | [] => .ok line
  | _ :: _ => .error .wrongOperandCount

/-- A line with one byte operand. -/
def oneByte (line : Byte → AsmLine) : List (List Char) → Except AsmError AsmLine
  | [l] =>
    match byteOperand l with
    | .ok b => .ok (line b)
    | .error e => .error e
  | _ => .error .wrongOperandCount

/-- `FRAME b0, b1, ..., b9`: exactly ten operands (R54, R55). -/
def frameLine (ls : List (List Char)) : Except AsmError AsmLine :=
  if ls.length = 10 then
    match byteOperands ls with
    | .ok bs => .ok (.frame bs)
    | .error e => .error e
  else .error .frameOperandCount

/-- `WAIT n`, `n >= 0` (R54). Its operand is a number as R53 has it, so R55 rejects one outside 0..255 here too. -/
def waitLine (ls : List (List Char)) : Except AsmError AsmLine := oneByte (fun b => .wait b.toNat) ls

/-- A mnemonic with its operands (R53, R54); any other is unknown (R55). -/
def parseCommand (mnemonic : List Char) (ls : List (List Char)) : Except AsmError AsmLine :=
  if mnemonic = "IDLE".toList then noOperand .idle ls
  else if mnemonic = "PUSH".toList then oneByte .push ls
  else if mnemonic = "REQ".toList then oneByte .req ls
  else if mnemonic = "REQ.AUTO".toList then noOperand .reqAuto ls
  else if mnemonic = "REQ.A".toList then noOperand .reqA ls
  else if mnemonic = "REQ.B".toList then noOperand .reqB ls
  else if mnemonic = "FRAME".toList then frameLine ls
  else if mnemonic = "WAIT".toList then waitLine ls
  else if mnemonic = "RESET".toList then noOperand .reset ls
  else .error .unknownMnemonic

/-- What a line says: without its comment and without blanks at its ends. -/
def lineBody (line : List Char) : List Char := trimBlanks (stripComment line)

/-- The mnemonic of a line: what stands before its first blank. -/
def lineMnemonic (line : List Char) : List Char := (lineBody line).takeWhile (fun c => !isBlank c)

/-- The operands of a line: what stands after its mnemonic, between commas. -/
def lineOperands (line : List Char) : List (List Char) :=
  operandTexts ((lineBody line).dropWhile (fun c => !isBlank c))

/-- One line: nothing where it holds only blanks and a comment. -/
def parseLine (line : List Char) : Except AsmError (Option AsmLine) :=
  if lineBody line = [] then .ok none
  else
    match parseCommand (lineMnemonic line) (lineOperands line) with
    | .ok l => .ok (some l)
    | .error e => .error e

/-- The samples of one line. -/
def assembleLine (p : Params) (line : List Char) : Except AsmError (List PortSample) :=
  match parseLine line with
  | .ok (some l) => .ok (l.expand p)
  | .ok none => .ok []
  | .error e => .error e

/-- The samples of a text, line by line. R55 rejects lines and says nothing of the text around one. DESIGN CHOICE (log entry 12):
the first rejected line rejects the whole text with its reason, and no sample of an accepted line is given. -/
def assemble (p : Params) : List (List Char) → Except AsmError (List PortSample)
  | [] => .ok []
  | line :: lines =>
    match assembleLine p line with
    | .error e => .error e
    | .ok xs =>
      match assemble p lines with
      | .error e => .error e
      | .ok ys => .ok (xs ++ ys)

end Sys2Proof.Machine
end

