-- ==== Sys2Proof/Machine/Block.lean ====
section
/-!
DEFINITION. The block as the spec describes the HARDWARE: `Step(S, rst, cmd) = (S', rsp)`, a total function of the
parameters (spec/00_scope.md R6, R11), over the same operations as the meanings. `step` is this function at
`Config.params`, less the reserved words it must refuse.
-/

namespace Sys2Proof.Machine

/-- What a step with `rst == 0` does on conforming hardware. A reserved word "acts like `IDLE`" (30_encoding.md R46). -/
def blockExec (p : Params) : Instr → State → State
  | .idle _, s => quiet s
  | .push b, s => pushByte b s
  | .req reqId, s => request p reqId s
  | .reserved _, s => quiet s

/-- One step of conforming hardware with the parameters `p`. -/
def blockStep (p : Params) (s : State) : State :=
  if s.presented.rst then s.popInput.resetBlock
  else blockExec p (decode s.presented.cmd) s.popInput

end Sys2Proof.Machine
end

