-- ==== Sys2Proof/Safety.lean ====
section
/-!
DEFINITION. What counts as a safe run, in the terms the statements use.
-/

namespace Sys2Proof.Machine

/-- A sample an integrator may drive: a reset, or a command outside the reserved class (spec/30_encoding.md R46:
"Integrators must never issue one"). -/
def PortSample.legal (x : PortSample) : Bool := x.rst || (decode x.cmd).wf

/-- A stream that holds no reserved word outside a reset step. -/
def LegalStream (xs : List PortSample) : Prop := ∀ x ∈ xs, x.legal = true

/-- A stream with no reset step. -/
def NoReset (xs : List PortSample) : Prop := ∀ x ∈ xs, x.rst = false

/-- A stream that delivers no byte. -/
def NoPush (xs : List PortSample) : Prop := ∀ x ∈ xs, pushedByte x = none

/-- The response as 30_encoding.md R50 allows it, and the identifiers and lengths of 41_synthesis.md R65 and R66. -/
def Response.wf (r : Response) : Prop :=
  (r.status ≠ .ok → r = Response.empty r.status) ∧
  (r.status = .ok →
    (r.id = Config.params.idA ∧ r.len = 2#3 ∧ ∀ j : Fin 7, 2 ≤ j.val → r.payload[j] = 0#8) ∨
    (r.id = Config.params.idB ∧ r.len = 7#3))

/-- The invariant of the machine: every step keeps it, and it holds at reset.
The frame store is canonical. With `cnt == 0` nothing has happened since reset (10_state.md R25). The indicator is off
only before the first byte, or on a ready frame (R22). The response obeys R50 and agrees with the state: `OK` and
`UNRECOGNIZED` come only from a ready frame, `NOT_READY` only from one that is not (41_synthesis.md R62). -/
structure State.Inv (s : State) : Prop where
  frame_wf : s.frame.wf
  cnt_zero : s.cnt = 0 → s.frame = [] ∧ s.lastId = Config.idNeutral ∧ s.led = false
  led_off : s.led = false → s.cnt = 0 ∨ s.cnt = 10
  rsp_wf : s.rsp.wf
  rsp_ok : s.rsp.status = .ok → s.cnt = 10 ∧ s.led = false ∧ s.rsp.id = s.lastId
  rsp_unrecognized : s.rsp.status = .unrecognized →
    s.cnt = 10 ∧ s.lastId ≠ Config.params.idA ∧ s.lastId ≠ Config.params.idB ∧ s.lastId ≠ 0#8
  rsp_notReady : s.rsp.status = .notReady → s.cnt ≠ 10

/-- The states some run from reset reaches, under any input stream. -/
inductive Reachable : State → Prop where
  | reset (xs : List PortSample) : Reachable { State.reset with inputs := xs }
  | step {s t : State} : Reachable s → Machine.step s = .next t → Reachable t

/-- `S = (Frame, cnt, last_id, led)` of two states is the same (10_state.md R13): the ports may differ. -/
structure SameArch (s t : State) : Prop where
  frame : s.frame = t.frame
  cnt : s.cnt = t.cnt
  lastId : s.lastId = t.lastId
  led : s.led = t.led

/-- The two states differ at most in bytes of the frame store that no REQ can read before they are written again: those at
or past `cnt`, and the padding byte `Frame[9]` (10_state.md R16, R28). -/
structure AgreeOnFilled (s t : State) : Prop where
  cnt : s.cnt = t.cnt
  lastId : s.lastId = t.lastId
  led : s.led = t.led
  bytes : ∀ k : Fin 10, k.val < s.cnt.val → k ≠ 9 → s.frame.read k = t.frame.read k

end Sys2Proof.Machine
end

