-- ==== Sys2Proof/Certificates/Slice0/Obligations.lean ====
section
/-!
DEFINITION. The statements for the provers. A docstring names the rule of spec/ a statement formalises. Where that rule
carries the spec's own tag [decision: D<n>] or [derived], the statement's basis is 'derived' and the docstring says so.
-/

open Sys2Proof Sys2Proof.Machine

/-! ### One step, reset, the ports -/

/-- 70_reset_and_hazards.md R89 (the spec's decision D12): "A step with `rst == 0` executes `cmd`". The second clause is the
model's choice (log entry 2): with no input listed, a step is an `IDLE`. -/
def Obligations.StepRunsDecodedCommand : Prop :=
  (∀ (s : State) (x : PortSample) (rest : List PortSample), s.inputs = x :: rest → x.rst = false →
    step s = exec (decode x.cmd) { s with inputs := rest }) ∧
  (∀ s : State, s.inputs = [] → step s = exec (.idle 0#8) s)

/-- 70_reset_and_hazards.md R89 (the spec's decision D12): a step with `rst == 1` ignores `cmd`, whatever it is, sets every
state element to its reset value (10_state.md R27, decisions D8 to D11), and responds NONE with all fields zero. -/
def Obligations.ResetStepRestoresEveryRegister : Prop :=
  ∀ (s : State) (cmd : CmdWord) (rest : List PortSample), s.inputs = { rst := true, cmd := cmd } :: rest →
    ∃ t, step s = .next t ∧ (∀ k, t.frame.read k = 0x00#8) ∧ t.cnt = 0 ∧ t.lastId = 0x00#8 ∧ t.led = false ∧
      t.rsp = { status := .none, id := 0#8, len := 0#3, payload := #v[0#8, 0#8, 0#8, 0#8, 0#8, 0#8, 0#8] } ∧ t.inputs = rest

/-- 10_state.md R27 (the spec's decisions D8 to D11): what reset leaves in the tuple `S`. Two clauses are the model's choices:
the listed inputs are empty (log entry 2), and the response held in the launch state is NONE (log entry 1), which R13 says is no
state; it is the response 70_reset_and_hazards.md R89 (decision D12) gives a reset step. -/
def Obligations.ResetStateHoldsSpecValues : Prop :=
  (∀ k, State.reset.frame.read k = 0x00#8) ∧ State.reset.cnt = 0 ∧ State.reset.lastId = 0x00#8 ∧ State.reset.led = false ∧
  State.reset.ready = false ∧ State.reset.rsp.status.code = 0b00#2 ∧ State.reset.inputs = []

/-- The fixed names of the host: the word of a table row on the command port is what the coming step runs, with the ports'
later samples left as they were (the model's choice, log entries 3 and 13). -/
def Obligations.FetchWordRunsInTheComingStep : Prop :=
  ∀ (s : State) (nbits w : Nat) (i : Instr), decodeTableWord nbits w = some i →
    step (s.withFetchWord nbits w) = exec i { s with inputs := s.inputs.tail }

/-- 00_scope.md R11 and 30_encoding.md R46 (the spec's decisions D1, D4): on every state, a step is the step of conforming
hardware with the block's parameters, unless it samples a reserved word, and then it refuses. -/
def Obligations.StepRefinesHardwareBlock : Prop :=
  ∀ s : State,
    (s.presented.legal = true → step s = .next (blockStep Config.params s)) ∧
    (s.presented.legal = false → step s = .refused (.reservedCommand (dataField s.presented.cmd)))

/-- 30_encoding.md R48 (the spec's decision D6): a response is fresh in every step and depends only on the command and the
state `S`, never on the response before it; a step that is not a `REQ` drives NONE with all fields zero. -/
def Obligations.ResponseIsFreshEveryStep : Prop :=
  (∀ (s : State) (r : Response), step { s with rsp := r } = step s) ∧
  (∀ s t : State, step s = .next t → (s.presented.rst = true ∨ ∀ q, decode s.presented.cmd ≠ .req q) →
    t.rsp = Response.empty .none)

/-- 30_encoding.md R44, R48, R49 (the spec's decisions D2, D6): the wires of the response bundle, from the most significant
field down, and byte j of the payload at `rsp_payload[8j+7:8j]`; the four status codes. -/
def Obligations.ResponseBundleLayout : Prop :=
  (∀ r : Response, r.bundle.extractLsb' 67 2 = r.status.code ∧ r.bundle.extractLsb' 59 8 = r.id ∧
    r.bundle.extractLsb' 56 3 = r.len ∧ r.bundle.extractLsb' 0 56 = r.payloadPort ∧
    ∀ j : Fin 7, r.payloadPort.extractLsb' (8 * j.val) 8 = r.payload[j]) ∧
  Status.none.code = 0b00#2 ∧ Status.ok.code = 0b01#2 ∧ Status.notReady.code = 0b10#2 ∧ Status.unrecognized.code = 0b11#2

/-- 20_memory.md R39 (the spec's decision D19): commands take effect in the order of the stream, one a step. The host's run
of k steps over the listed inputs is the run that drives them one by one. -/
def Obligations.CoreRunFollowsInputStream : Prop :=
  ∀ (s : State) (xs : List PortSample),
    Host.Core.run Sys2Proof.core xs.length ({ s with inputs := xs ++ s.inputs } : State) = feed s xs

/-! ### Encoding -/

/-- 30_encoding.md R45, R52 (the spec's decisions D3, D5): decoding the encoding of any instruction gives it back, with every
operand, and encoding what any of the 1024 words decodes to gives the word back. For IDLE and reserved words both clauses rest on
the model's choice to keep the data byte that R45 and R52 say is ignored (log entry 15). -/
def Obligations.DecodeAndEncodeAgree : Prop :=
  (∀ i : Instr, decode (encode i) = i) ∧ (∀ w : CmdWord, encode (decode w) = w)

/-- 30_encoding.md R45, R52, R53 (the spec's decisions D3, D5, D22): words written out bit by bit. Two points are the model's
choices: that an `idle` or a `reserved` names the ignored byte of its word (log entry 15), and that a number which does not fit
the ten wires of the command port is no table word (log entry 13). -/
def Obligations.WordsOfTheSpecDecode : Prop :=
  decode 0b0000000000#10 = .idle 0x00#8 ∧ decode 0b0011111111#10 = .idle 0xFF#8 ∧ decode 0b0101011010#10 = .push 0x5A#8 ∧
  decode 0b1000000001#10 = .req 0x01#8 ∧ decode 0b1011111111#10 = .req 0xFF#8 ∧ decode 0b1100000000#10 = .reserved 0x00#8 ∧
  decodeTableWord 16 0x1AA = some (.push 0xAA#8) ∧ decodeTableWord 16 0x400 = none

/-- 30_encoding.md R51 (the spec's decision D3) and spec/opcode_table.json: every word meets `match` under `mask` of the row
it decodes to and of no other row, and the data field never changes which operation is selected. -/
def Obligations.OpcodeRowsPartitionTheWords : Prop :=
  (∀ (w : CmdWord) (i : Instr), (w &&& tableMask = i.tableMatch ↔ (decode w).op = i.op)) ∧
  (∀ v w : CmdWord, opField v = opField w → (decode v).op = (decode w).op)

/-! ### The reserved class -/

/-- 30_encoding.md R46 (the spec's decision D4): a model refuses a word with `op == 0b11`, and refuses nothing else; in a
reset step it refuses nothing (70_reset_and_hazards.md R89). Conforming hardware makes no state change there and responds
NONE with all fields zero. -/
def Obligations.ReservedWordsAreRefused : Prop :=
  (∀ (d : Byte) (s : State), exec (.reserved d) s = .refused (.reservedCommand d)) ∧
  (∀ (s : State) (r : Refusal), step s = .refused r ↔
    s.presented.rst = false ∧ opField s.presented.cmd = 0b11#2 ∧ r = .reservedCommand (dataField s.presented.cmd)) ∧
  (∀ (p : Params) (s : State), s.presented.rst = false → opField s.presented.cmd = 0b11#2 →
    SameArch (blockStep p s) s ∧ (blockStep p s).rsp = Response.empty .none ∧
      (blockStep p s).inputs = s.inputs.tail)

/-! ### IDLE -/

/-- 40_ingest.md R56 (the spec's decisions D2, D5): IDLE always completes, whatever its data, changes no state and responds
NONE with all fields zero. -/
def Obligations.IdleChangesNothing : Prop :=
  ∀ (d : Byte) (s : State), ∃ t, exec (.idle d) s = .next t ∧
    (∀ k, t.frame.read k = s.frame.read k) ∧ t.cnt = s.cnt ∧ t.lastId = s.lastId ∧ t.led = s.led ∧
    t.inputs = s.inputs ∧ t.rsp = { status := .none, id := 0#8, len := 0#3, payload := #v[0#8, 0#8, 0#8, 0#8, 0#8, 0#8, 0#8] }

/-- 40_ingest.md R56, 70_reset_and_hazards.md R98 (the spec's decisions D2, D5, D24): any number of `IDLE` steps between
commands changes no result: the other steps respond as without them, and the run ends in the same `S`. -/
def Obligations.IdleStepsChangeNoResult : Prop :=
  ∀ (s : State) (xs zs ys : List PortSample), LegalStream xs →
    (∀ z ∈ zs, z.rst = false ∧ opField z.cmd = 0b00#2) →
    responses s (xs ++ zs ++ ys) =
      responses s xs ++ List.replicate zs.length (Response.empty .none) ++ (responses s (xs ++ ys)).drop xs.length ∧
    ∀ t, feed s (xs ++ ys) = .next t → ∃ u, feed s (xs ++ zs ++ ys) = .next u ∧ SameArch u t

/-! ### PUSH -/

/-- 40_ingest.md R57, R60: PUSH always completes. It stores the byte, unchanged and whatever it is, at
`idx = (cnt == 10) ? 0 : cnt`, leaves every other byte, sets `cnt` to idx + 1 and `led` to 1 whatever it was, leaves `last_id`,
and responds NONE; Ready becomes true when `cnt` was 9 and false when it was 10. Its words are those with match 0x100 under
mask 0x300, `b` their low byte. From then on `cnt == 0` is not visible until a reset. -/
def Obligations.PushStoresByteAndAdvances : Prop :=
  (∀ (b : Byte) (s : State), ∃ t, exec (.push b) s = .next t ∧
    (pushIndex s.cnt).val = (if s.cnt.val = 10 then 0 else s.cnt.val) ∧
    t.frame.read (pushIndex s.cnt) = b ∧ (∀ k, k ≠ pushIndex s.cnt → t.frame.read k = s.frame.read k) ∧
    t.cnt.val = (if s.cnt.val = 10 then 0 else s.cnt.val) + 1 ∧ t.led = true ∧ t.lastId = s.lastId ∧
    t.inputs = s.inputs ∧ t.rsp = { status := .none, id := 0#8, len := 0#3, payload := #v[0#8, 0#8, 0#8, 0#8, 0#8, 0#8, 0#8] } ∧
    (s.cnt.val = 9 → t.ready = true) ∧ (s.cnt.val = 10 → t.ready = false)) ∧
  (∀ w : CmdWord, w &&& 0x300#10 = 0x100#10 → decode w = .push (w.setWidth 8)) ∧
  (∀ s t : State, s.cnt ≠ 0 → s.presented.rst = false → step s = .next t → t.cnt ≠ 0)

/-- 10_state.md R25 (tagged [derived] there): `cnt == 0` holds from reset until the first PUSH, and at no later time until
the next reset. -/
def Obligations.CounterZeroOnlyBeforeFirstPush : Prop :=
  (∀ (s t : State) (xs : List PortSample), s.cnt = 0 → NoReset xs → feed s xs = .next t →
    (t.cnt = 0 ↔ NoPush xs)) ∧
  (∀ (s t : State) (xs : List PortSample), s.cnt ≠ 0 → NoReset xs → feed s xs = .next t → t.cnt ≠ 0)

/-- 10_state.md R15: only PUSH writes the frame store, one byte a command, at the index of 40_ingest.md R57; reset also
writes it; `Frame[9]` is written like every other byte. -/
def Obligations.OnlyPushWritesTheFrameStore : Prop :=
  (∀ (s t : State) (k : Fin 10), step s = .next t → s.presented.rst = false → t.frame.read k ≠ s.frame.read k →
    ∃ b, decode s.presented.cmd = .push b ∧ k.val = (if s.cnt.val = 10 then 0 else s.cnt.val) ∧ t.frame.read k = b) ∧
  (∀ s t : State, step s = .next t → s.presented.rst = true → ∀ k, t.frame.read k = 0x00#8) ∧
  (∀ (b : Byte) (s : State), s.cnt.val = 9 → ∃ t, exec (.push b) s = .next t ∧ t.frame.read 9 = b)

/-- 10_state.md R20: only two things write `cnt`: PUSH, per 40_ingest.md R57, and reset, per R27; IDLE and REQ never do, a
successful REQ among them. -/
def Obligations.OnlyPushAndResetWriteTheCounter : Prop :=
  (∀ s t : State, step s = .next t → s.presented.rst = false → (∀ b, decode s.presented.cmd ≠ .push b) → t.cnt = s.cnt) ∧
  (∀ s t : State, step s = .next t → s.presented.rst = true → t.cnt = 0) ∧
  (∀ (s t : State) (b : Byte), step s = .next t → s.presented.rst = false → decode s.presented.cmd = .push b →
    t.cnt.val = (if s.cnt.val = 10 then 0 else s.cnt.val) + 1) ∧
  (∀ (d : Byte) (s : State), ∃ t, exec (.idle d) s = .next t ∧ t.cnt = s.cnt) ∧
  (∀ (q : Byte) (s : State), ∃ t, exec (.req q) s = .next t ∧ t.cnt = s.cnt)

/-- 20_memory.md R32: counting from a frame-aligned state, the k-th byte pushed lands in `Frame[k-1]`, whatever IDLE and REQ
steps stand between; and after n bytes, n in 1..10, `cnt` is n, so that a tenth byte completes the frame. -/
def Obligations.ArrivalOrderIsIndexOrder : Prop :=
  ∀ (s t : State) (xs : List PortSample), (s.cnt = 0 ∨ s.cnt = 10) → NoReset xs →
    (pushedBytes xs).length ≤ 10 → feed s xs = .next t →
    (∀ (k : Fin 10) (b : Byte), (pushedBytes xs)[k.val]? = some b → t.frame.read k = b) ∧
    (pushedBytes xs ≠ [] → t.cnt.val = (pushedBytes xs).length)

/-- 40_ingest.md R61, 20_memory.md R34, 70_reset_and_hazards.md R93 (decision D20 and derivations of the spec): no byte value,
no number of IDLE steps and no REQ moves the frame boundary: only the number of PUSH commands counts, modulo 10. So a slip of
d bytes stays a slip of d bytes under every stream without a reset. -/
def Obligations.FrameBoundaryMovesOnlyByPushes : Prop :=
  (∀ (s t : State) (xs : List PortSample), NoReset xs → feed s xs = .next t →
    (pushIndex t.cnt).val = ((pushIndex s.cnt).val + (pushedBytes xs).length) % 10) ∧
  (∀ (s s' t t' : State) (d : Nat) (xs : List PortSample), NoReset xs → feed s xs = .next t → feed s' xs = .next t' →
    (pushIndex s'.cnt).val = ((pushIndex s.cnt).val + d) % 10 →
    (pushIndex t'.cnt).val = ((pushIndex t.cnt).val + d) % 10)

/-- 40_ingest.md R59, 70_reset_and_hazards.md R94 (tagged [derived] there): from `cnt == 10`, a PUSH leaves `cnt == 1` and the
byte in `Frame[0]`, and every REQ answers NOT_READY until nine more PUSH commands have arrived; the ninth makes the frame
ready again. -/
def Obligations.NextByteOpensTheRefillWindow : Prop :=
  ∀ (s : State) (b : Byte), s.cnt = 10 → ∃ t, exec (.push b) s = .next t ∧ t.cnt = 1 ∧ t.frame.read 0 = b ∧
    ∀ (xs : List PortSample) (u : State), NoReset xs → feed t xs = .next u →
      ((pushedBytes xs).length < 9 → ∀ q, ∃ v, exec (.req q) u = .next v ∧ v.rsp.status = .notReady) ∧
      ((pushedBytes xs).length = 9 → u.ready = true)

/-! ### REQ -/

/-- 41_synthesis.md R63 (its "no state change" is the spec's decision D13) and 60_exceptions.md R82: a REQ that is not ready
answers NOT_READY, whatever its identifier, with every other response field zero, and changes no state. -/
def Obligations.RequestNotReadyChangesNothing : Prop :=
  ∀ (q : Byte) (s : State), s.cnt ≠ 10 → ∃ t, exec (.req q) s = .next t ∧
    t.rsp = { status := .notReady, id := 0#8, len := 0#3, payload := #v[0#8, 0#8, 0#8, 0#8, 0#8, 0#8, 0#8] } ∧
    (∀ k, t.frame.read k = s.frame.read k) ∧ t.cnt = s.cnt ∧ t.lastId = s.lastId ∧ t.led = s.led ∧ t.inputs = s.inputs

/-- 41_synthesis.md R64: on a ready REQ `last_id` takes the resolved identifier: with `req_id == 0` it flips between A and B,
otherwise it is `req_id`. It moves only on a ready REQ (or a reset), and it takes the value 0 only at reset. -/
def Obligations.LastIdentifierStateMachine : Prop :=
  (∀ (q : Byte) (s : State), s.cnt = 10 → ∃ t, exec (.req q) s = .next t ∧
    t.lastId = (if q = 0#8 then (if s.lastId = Config.params.idA then Config.params.idB else Config.params.idA) else q)) ∧
  (∀ s t : State, step s = .next t → t.lastId ≠ s.lastId →
    s.presented.rst = true ∨ (s.cnt = 10 ∧ ∃ q, decode s.presented.cmd = .req q)) ∧
  (∀ s t : State, step s = .next t → s.presented.rst = false → t.lastId = 0#8 → s.lastId = 0#8) ∧
  (∀ (p : Params) (q last : Byte), resolveId p q last ≠ 0#8)

/-- 41_synthesis.md R65: when the resolved identifier is `ID_A`, the response is OK, `ID_A`, length 2, payload bytes 0 and 1
copied from `Frame[0]` and `Frame[1]`, bytes 2..6 zero. The frame of the instruction stands beside it. -/
def Obligations.RequestReportsSimplePad : Prop :=
  ∀ (q : Byte) (s : State), s.cnt = 10 → resolveId Config.params q s.lastId = Config.params.idA →
    ∃ t, exec (.req q) s = .next t ∧ t.rsp.status = .ok ∧ t.rsp.id = Config.params.idA ∧ t.rsp.len = 2#3 ∧
      t.rsp.payload[0] = s.frame.read 0 ∧ t.rsp.payload[1] = s.frame.read 1 ∧
      (∀ j : Fin 7, 2 ≤ j.val → t.rsp.payload[j] = 0x00#8) ∧
      t.lastId = Config.params.idA ∧ t.led = false ∧ t.cnt = s.cnt ∧ t.inputs = s.inputs ∧
      ∀ k, t.frame.read k = s.frame.read k

/-- 41_synthesis.md R66: when the resolved identifier is `ID_B`, the response is OK, `ID_B`, length 7, three bytes copied and
each axis through NORM, as a two's-complement byte. The second clause says the same of a block with any legal parameters,
`DZ_INNER_ZERO` among them (42_stick_normalizer.md R76). -/
def Obligations.RequestReportsDualStick : Prop :=
  (∀ (q : Byte) (s : State), s.cnt = 10 → resolveId Config.params q s.lastId = Config.params.idB →
    ∃ t, exec (.req q) s = .next t ∧ t.rsp.status = .ok ∧ t.rsp.id = Config.params.idB ∧ t.rsp.len = 7#3 ∧
      t.rsp.payload[0] = s.frame.read 2 ∧ t.rsp.payload[1] = s.frame.read 3 ∧ t.rsp.payload[2] = s.frame.read 4 ∧
      t.rsp.payload[3] = s8 (norm false (s.frame.read 5)) ∧ t.rsp.payload[4] = s8 (norm false (s.frame.read 6)) ∧
      t.rsp.payload[5] = s8 (norm false (s.frame.read 7)) ∧ t.rsp.payload[6] = s8 (norm false (s.frame.read 8)) ∧
      t.lastId = Config.params.idB ∧ t.led = false ∧ t.cnt = s.cnt ∧ t.inputs = s.inputs ∧
      ∀ k, t.frame.read k = s.frame.read k) ∧
  (∀ (p : Params) (q : Byte) (s : State), s.cnt = 10 → resolveId p q s.lastId = p.idB →
    (request p q s).rsp =
      { status := .ok, id := p.idB, len := 7#3
        payload := #v[s.frame.read 2, s.frame.read 3, s.frame.read 4, s8 (norm p.dzInnerZero (s.frame.read 5)),
          s8 (norm p.dzInnerZero (s.frame.read 6)), s8 (norm p.dzInnerZero (s.frame.read 7)),
          s8 (norm p.dzInnerZero (s.frame.read 8))] })

/-- 41_synthesis.md R67: when the resolved identifier is neither `ID_A` nor `ID_B`, the response is UNRECOGNIZED with all other
fields zero, `last_id` holds the identifier, `led` is unchanged, and so is everything else. -/
def Obligations.RequestUnrecognizedIdentifier : Prop :=
  ∀ (q : Byte) (s : State), s.cnt = 10 → resolveId Config.params q s.lastId ≠ Config.params.idA →
    resolveId Config.params q s.lastId ≠ Config.params.idB →
    ∃ t, exec (.req q) s = .next t ∧
      t.rsp = { status := .unrecognized, id := 0#8, len := 0#3, payload := #v[0#8, 0#8, 0#8, 0#8, 0#8, 0#8, 0#8] } ∧
      t.lastId = q ∧ t.led = s.led ∧ t.cnt = s.cnt ∧ t.inputs = s.inputs ∧ ∀ k, t.frame.read k = s.frame.read k

/-- 41_synthesis.md R68: REQ always completes; it sets `led` to 0 when it answers OK, and NOT_READY and UNRECOGNIZED leave
`led` unchanged. -/
def Obligations.RequestClearsIndicatorOnlyOnOk : Prop :=
  ∀ (q : Byte) (s : State), ∃ t, exec (.req q) s = .next t ∧
    (t.rsp.status = .ok ∨ t.rsp.status = .notReady ∨ t.rsp.status = .unrecognized) ∧
    (t.rsp.status = .ok → t.led = false) ∧ (t.rsp.status = .notReady → t.led = s.led) ∧
    (t.rsp.status = .unrecognized → t.led = s.led)

/-- 41_synthesis.md R69: REQ writes neither `Frame` nor `cnt`; the frame stays ready, and later REQ commands read the same
bytes until the next PUSH. -/
def Obligations.RequestDoesNotConsumeTheFrame : Prop :=
  (∀ (q : Byte) (s : State), ∃ t, exec (.req q) s = .next t ∧ (∀ k, t.frame.read k = s.frame.read k) ∧ t.cnt = s.cnt) ∧
  (∀ (s t : State) (xs : List PortSample), s.cnt = 10 → NoReset xs → NoPush xs → feed s xs = .next t →
    t.ready = true ∧ ∀ k, t.frame.read k = s.frame.read k)

/-- 41_synthesis.md R70 (tagged [derived] there): along a run with no reset whose every REQ carries 0, the identifiers
emitted strictly alternate, beginning with `ID_A` unless `last_id` is `ID_A`; PUSH, IDLE and NOT_READY steps between do not
break it. After reset the first is `ID_A`. -/
def Obligations.AutomaticRequestsAlternate : Prop :=
  (∀ (s : State) (xs : List PortSample), NoReset xs → (∀ x ∈ xs, ∀ q, decode x.cmd = .req q → q = 0#8) →
    emittedIds s xs = (List.range (emittedIds s xs).length).map (fun k =>
      if s.lastId = Config.params.idA then (if k % 2 = 0 then Config.params.idB else Config.params.idA)
      else (if k % 2 = 0 then Config.params.idA else Config.params.idB))) ∧
  (∀ xs : List PortSample, NoReset xs → (∀ x ∈ xs, ∀ q, decode x.cmd = .req q → q = 0#8) →
    ∀ id, (emittedIds State.reset xs).head? = some id → id = Config.params.idA)

/-- 41_synthesis.md R71 (tagged [derived] there): the identifier a ready REQ resolves to steers the next automatic one: after
`ID_A` the next ready `REQ 0` emits `ID_B`, after anything else `ID_A`, whatever PUSH, IDLE and NOT_READY steps stand between
(no step between answers OK or UNRECOGNIZED, so no ready REQ is among them). -/
def Obligations.ExplicitIdentifierSteersTheNext : Prop :=
  ∀ (s : State) (q : Byte), s.cnt = 10 → ∃ t, exec (.req q) s = .next t ∧
    ∀ (xs : List PortSample) (u : State), NoReset xs →
      (∀ r ∈ responses t xs, r.status = .none ∨ r.status = .notReady) → feed t xs = .next u →
      u.cnt = 10 → ∃ v, exec (.req 0#8) u = .next v ∧ v.rsp.status = .ok ∧
        v.rsp.id = (if resolveId Config.params q s.lastId = Config.params.idA then Config.params.idB
          else Config.params.idA)

/-- 70_reset_and_hazards.md R96 (tagged [derived] there; 90_conflicts.md C7): when PUSH commands stop in the middle of a frame,
every later REQ answers NOT_READY and `led` stays 1; when they stop on a ready frame, every later REQ that resolves to a layout
keeps answering OK from that frame, every `REQ 0` among them. The invariant rules out states no run reaches, in which `led`
could be 0 in the middle of a frame. -/
def Obligations.StalledSender : Prop :=
  ∀ (s t : State) (xs : List PortSample), s.Inv → NoReset xs → NoPush xs → feed s xs = .next t →
    (s.cnt ≠ 10 → ∀ q, ∃ u, exec (.req q) t = .next u ∧ u.rsp.status = .notReady) ∧
    (s.cnt ≠ 10 → s.cnt ≠ 0 → t.led = true) ∧
    (s.cnt = 10 → ∀ q, ∃ u, exec (.req q) t = .next u ∧
      (resolveId Config.params q t.lastId = Config.params.idA → u.rsp = reportA Config.params s.frame) ∧
      (resolveId Config.params q t.lastId = Config.params.idB → u.rsp = reportB Config.params s.frame) ∧
      (q = 0#8 → u.rsp.status = .ok))

/-! ### NORM -/

/-- 42_stick_normalizer.md R73, R75: NORM's steps, for either value of `DZ_INNER_ZERO`; both thresholds are inclusive; step 3
stores the result as a signed byte without loss. -/
def Obligations.NormFollowsItsSteps : Prop :=
  (∀ (dz : Bool) (raw : Byte),
    ((raw.toNat : Int) - 128 ≥ 28 → norm dz raw = (raw.toNat : Int) - 128 - 28) ∧
    ((raw.toNat : Int) - 128 ≤ -28 → norm dz raw = (raw.toNat : Int) - 128 + 28) ∧
    (-28 < (raw.toNat : Int) - 128 → (raw.toNat : Int) - 128 < 28 →
      norm dz raw = if dz then 0 else (raw.toNat : Int) - 128) ∧
    intS8 (s8 (norm dz raw)) = norm dz raw) ∧
  (∀ dz : Bool, norm dz 156#8 = 0 ∧ norm dz 100#8 = 0 ∧ norm dz 157#8 = 1 ∧ norm dz 99#8 = -1)

/-- 42_stick_normalizer.md R77 (tagged [derived] there): the exact range of each band, under either value of
`DZ_INNER_ZERO`, and the two extreme payload bytes. -/
def Obligations.NormRange : Prop :=
  (∀ (dz : Bool) (raw : Byte), -100 ≤ norm dz raw ∧ norm dz raw ≤ 99 ∧
    (156 ≤ raw.toNat → 0 ≤ norm dz raw) ∧ (raw.toNat ≤ 100 → norm dz raw ≤ 0) ∧
    (101 ≤ raw.toNat → raw.toNat ≤ 155 → -27 ≤ norm dz raw ∧ norm dz raw ≤ 27)) ∧
  (∀ dz : Bool, axisByte dz 0#8 = 0x9C#8 ∧ axisByte dz 255#8 = 0x63#8)

/-- 42_stick_normalizer.md R74 (tagged [derived] there): step 1 is exact, and bit for bit `c = int_s8(raw XOR 0x80)`. -/
def Obligations.NormCentringIsExact : Prop :=
  ∀ raw : Byte, (raw.toNat : Int) - 128 = intS8 (raw ^^^ 0x80#8)

/-- 42_stick_normalizer.md R78 (tagged [derived] there): the preimages of every output under `DZ_INNER_ZERO = false`, where
NORM is not monotone, and under `true`, where it is. -/
def Obligations.NormPreimages : Prop :=
  (∀ (raw : Byte) (v : Int), norm false raw = v ↔
    ((raw.toNat : Int) = 128 + v ∧ -27 ≤ v ∧ v ≤ 27) ∨ ((raw.toNat : Int) = 156 + v ∧ 0 ≤ v ∧ v ≤ 99) ∨
    ((raw.toNat : Int) = 100 + v ∧ -100 ≤ v ∧ v ≤ 0)) ∧
  (∀ (raw : Byte) (v : Int), norm true raw = v ↔
    (v = 0 ∧ 100 ≤ raw.toNat ∧ raw.toNat ≤ 156) ∨ ((raw.toNat : Int) = 156 + v ∧ 1 ≤ v ∧ v ≤ 99) ∨
    ((raw.toNat : Int) = 100 + v ∧ -100 ≤ v ∧ v ≤ -1)) ∧
  (∀ a b : Byte, a.toNat ≤ b.toNat → norm true a ≤ norm true b) ∧
  norm false 156#8 < norm false 155#8 ∧ norm false 101#8 < norm false 100#8

/-! ### Whole-machine rules -/

/-- At reset the invariant holds (10_state.md R27; the invariant is the model's own, Safety.lean). -/
def Obligations.InvariantHoldsAtReset : Prop :=
  ∀ xs : List PortSample, ({ State.reset with inputs := xs } : State).Inv

/-- Every step keeps the invariant: the frame store stays canonical, `cnt == 0` means nothing has happened since reset
(10_state.md R25), the indicator is off only before the first byte or on a ready frame (R22), and the response obeys
30_encoding.md R50 and agrees with the state (41_synthesis.md R62). -/
def Obligations.EveryStepKeepsTheInvariant : Prop :=
  ∀ s t : State, s.Inv → step s = .next t → t.Inv

/-- Every state a run from reset reaches, under any input stream, meets the invariant. -/
def Obligations.ReachableStatesMeetTheInvariant : Prop :=
  ∀ s : State, Reachable s → s.Inv

/-- 60_exceptions.md R81: no error is fatal and no error stops the block: under every stream an integrator may issue (no
reserved word outside a reset step, 30_encoding.md R46), every run goes on to its end, and each step after any response
processes the next command under the same rules. -/
def Obligations.NoErrorStopsTheBlock : Prop :=
  (∀ (s : State) (xs : List PortSample), LegalStream xs → ∃ t, feed s xs = .next t) ∧
  (∀ (s t : State) (x y : PortSample), x.legal = true → y.legal = true → step (s.drive x) = .next t →
    ∃ u, step (t.drive y) = .next u)

/-- 10_state.md R16, R28 (tagged [derived] there): bytes of the frame store that no REQ can read before they are written again
(those at or past `cnt`, so all of them after reset, and the padding byte) never show: two states that differ only there drive
the same responses under every stream. -/
def Obligations.UnfilledBytesAreNeverObserved : Prop :=
  ∀ (s t : State) (xs : List PortSample), AgreeOnFilled s t → responses s xs = responses t xs

/-- 10_state.md R19, R20: the synthesizer's phase is FrameReady exactly when `cnt == 10`. It becomes FrameReady only when a PUSH
brings the counter to 10, and it leaves FrameReady only by a PUSH, always by one, or a reset. That a reset step leaves it comes
from R20, R27 (the spec's decision D9) and 70_reset_and_hazards.md R89 (decision D12). -/
def Obligations.PhaseFollowsTheCounter : Prop :=
  (∀ s : State, (s.phase = .frameReady ↔ s.cnt = 10) ∧ (s.phase = .awaitingFrame ↔ s.cnt ≠ 10)) ∧
  (∀ s t : State, step s = .next t → s.phase = .awaitingFrame → t.phase = .frameReady →
    s.presented.rst = false ∧ s.cnt.val = 9 ∧ ∃ b, decode s.presented.cmd = .push b) ∧
  (∀ s t : State, step s = .next t → s.phase = .frameReady →
    (t.phase = .awaitingFrame ↔ (s.presented.rst = true ∨ ∃ b, decode s.presented.cmd = .push b)))

/-- 10_state.md R22 (decision D11 for its reset value): PUSH sets `led`, whatever it was, and nothing else does; apart from
reset, only a REQ that answers OK clears it; and no rule reads it: changing `led` changes nothing else in any step. -/
def Obligations.IndicatorIsOnlyObservational : Prop :=
  (∀ (s t : State) (b : Byte), step s = .next t → s.presented.rst = false → decode s.presented.cmd = .push b →
    t.led = true) ∧
  (∀ s t : State, step s = .next t → s.led = false → t.led = true → ∃ b, decode s.presented.cmd = .push b) ∧
  (∀ s t : State, step s = .next t → s.led = true → t.led = false → s.presented.rst = true ∨ t.rsp.status = .ok) ∧
  (∀ (s t : State) (v : Bool), step s = .next t → ∃ u, step (s.setLed v) = .next u ∧
    u.frame = t.frame ∧ u.cnt = t.cnt ∧ u.lastId = t.lastId ∧ u.rsp = t.rsp ∧ u.inputs = t.inputs)

/-! ### The assembler -/

/-- 30_encoding.md R55 (the spec's decision D22): no syntax can spell a reserved word: no text the assembler accepts holds one,
whatever the parameters. -/
def Obligations.NoSyntaxSpellsAReservedWord : Prop :=
  ∀ (p : Params) (lines : List (List Char)) (xs : List PortSample), assemble p lines = .ok xs →
    LegalStream xs ∧ ∀ x ∈ xs, opField x.cmd ≠ 0b11#2

/-- 30_encoding.md R53, R54 (the spec's decision D22): the word of each command and the expansion of each
pseudo-instruction. -/
def Obligations.AssemblerWordsAndExpansions : Prop :=
  ∀ (p : Params) (b : Byte) (bs : List Byte) (n : Nat),
    AsmLine.idle.expand p = [{ rst := false, cmd := 0x000#10 }] ∧
    (AsmLine.push b).expand p = [{ rst := false, cmd := BitVec.ofNat 10 (0x100 + b.toNat) }] ∧
    (AsmLine.req b).expand p = [{ rst := false, cmd := BitVec.ofNat 10 (0x200 + b.toNat) }] ∧
    AsmLine.reqAuto.expand p = (AsmLine.req 0#8).expand p ∧ AsmLine.reqA.expand p = (AsmLine.req p.idA).expand p ∧
    AsmLine.reqB.expand p = (AsmLine.req p.idB).expand p ∧
    (AsmLine.frame bs).expand p = bs.flatMap (fun c => (AsmLine.push c).expand p) ∧
    (AsmLine.wait n).expand p = (List.replicate n AsmLine.idle).flatMap (fun l => l.expand p) ∧
    AsmLine.reset.expand p = [{ rst := true, cmd := 0x000#10 }]

/-- 30_encoding.md R53, R54, R55 (the spec's decision D22): the lines the assembler must reject: an operand outside 0..255, of
`WAIT` too; a `FRAME` whose operands are not ten; an unknown mnemonic. The model's choices (log entry 12) are the names of the
rejections, how a line is cut into mnemonic and operands, that a negative operand is rejected as no number, that every command
rejects an operand count its syntax does not show, and the last two clauses: R55 speaks of lines only, and in the model a
rejected line rejects its text, with the reason of the first such line. -/
def Obligations.AssemblerRejections : Prop :=
  (∀ (l : List Char) (n : Nat), parseNumber l = some n → 256 ≤ n →
    (parseCommand "PUSH".toList [l] = .error .operandOutOfRange ∧
      parseCommand "REQ".toList [l] = .error .operandOutOfRange ∧
      parseCommand "WAIT".toList [l] = .error .operandOutOfRange) ∧
    ∀ (p : Params) (line : List Char), lineMnemonic line ∈ ["PUSH".toList, "REQ".toList, "WAIT".toList] →
      lineOperands line = [l] → assembleLine p line = .error .operandOutOfRange) ∧
  (∀ ls : List (List Char), ls.length ≠ 10 → parseCommand "FRAME".toList ls = .error .frameOperandCount) ∧
  (∀ (p : Params) (line : List Char), lineMnemonic line = "FRAME".toList → (lineOperands line).length ≠ 10 →
    assembleLine p line = .error .frameOperandCount) ∧
  (∀ (ls : List (List Char)) (bs : List Byte), parseCommand "FRAME".toList ls = .ok (.frame bs) →
    bs.length = 10 ∧ ∀ l ∈ ls, ∃ n, parseNumber l = some n ∧ n < 256) ∧
  (∀ m : List Char,
    m ∉ ["IDLE".toList, "PUSH".toList, "REQ".toList, "REQ.AUTO".toList, "REQ.A".toList, "REQ.B".toList, "FRAME".toList,
      "WAIT".toList, "RESET".toList] →
    (∀ ls : List (List Char), parseCommand m ls = .error .unknownMnemonic) ∧
    ∀ (p : Params) (line : List Char), lineBody line ≠ [] → lineMnemonic line = m →
      assembleLine p line = .error .unknownMnemonic) ∧
  (∀ (p : Params) (line l : List Char), lineBody line ≠ [] → l ∈ lineOperands line →
    (∀ n, parseNumber l = some n → 256 ≤ n) → ∃ e, assembleLine p line = .error e) ∧
  (∀ cs : List Char, parseNumber ('-' :: cs) = none) ∧
  (∀ (p : Params) (line : List Char),
    (lineMnemonic line ∈ ["PUSH".toList, "REQ".toList, "WAIT".toList] → (lineOperands line).length ≠ 1 →
      assembleLine p line = .error .wrongOperandCount) ∧
    (lineMnemonic line ∈ ["IDLE".toList, "REQ.AUTO".toList, "REQ.A".toList, "REQ.B".toList, "RESET".toList] →
      lineOperands line ≠ [] → assembleLine p line = .error .wrongOperandCount)) ∧
  (∀ (p : Params) (pre post : List (List Char)) (line : List Char) (xs : List PortSample) (e : AsmError),
    assemble p pre = .ok xs → assembleLine p line = .error e → assemble p (pre ++ line :: post) = .error e) ∧
  (∀ (p : Params) (lines : List (List Char)) (line : List Char) (e : AsmError), line ∈ lines →
    assembleLine p line = .error e → ∃ e', assemble p lines = .error e')

/-- 30_encoding.md R53, R54 (the spec's decision D22): a comment changes nothing, and a number is its decimal or its hexadecimal
digits. That a blank separates the mnemonic from its operands and commas the operands is the model's choice (log entry 12), as is
that a line of blanks and a comment stands for no step. -/
def Obligations.AssemblerReadsALine : Prop :=
  (∀ (p : Params) (line comment : List Char), assembleLine p (line ++ ';' :: comment) = assembleLine p line) ∧
  (∀ (p : Params) (line : List Char), lineBody line = [] → assembleLine p line = .ok []) ∧
  (∀ m rest : List Char, m ≠ [] → (∀ c ∈ m, c ≠ ' ' ∧ c ≠ '\t' ∧ c ≠ ';') → ';' ∉ rest →
    lineMnemonic m = m ∧ lineOperands m = [] ∧
    lineMnemonic (m ++ ' ' :: rest) = m ∧ lineOperands (m ++ ' ' :: rest) = operandTexts rest) ∧
  (∀ ls : List (List Char), (∀ l ∈ ls, l ≠ [] ∧ ∀ c ∈ l, c ≠ ' ' ∧ c ≠ '\t' ∧ c ≠ ',') →
    operandTexts (List.intercalate [',', ' '] ls) = ls) ∧
  (∀ n : Nat, n < 256 → parseNumber (Nat.toDigits 10 n) = some n) ∧
  (∀ (h l : Fin 16) (c d : Char), "0123456789ABCDEF".toList[h.val]? = some c → "0123456789ABCDEF".toList[l.val]? = some d →
    parseNumber ['0', 'x', c, d] = some (16 * h.val + l.val))

/-- 30_encoding.md R53, R54 (the spec's decision D22): every command and pseudo-instruction, with the operands its syntax shows
and each of them in 0..255, is accepted and stands for exactly its words. How a line is cut into mnemonic and operands is the
model's choice (log entry 12). -/
def Obligations.AssemblerAcceptsTheSyntax : Prop :=
  ∀ (p : Params) (line : List Char),
    (lineOperands line = [] →
      (lineMnemonic line = "IDLE".toList → assembleLine p line = .ok [{ rst := false, cmd := 0x000#10 }]) ∧
      (lineMnemonic line = "REQ.AUTO".toList → assembleLine p line = .ok [{ rst := false, cmd := 0x200#10 }]) ∧
      (lineMnemonic line = "REQ.A".toList →
        assembleLine p line = .ok [{ rst := false, cmd := BitVec.ofNat 10 (0x200 + p.idA.toNat) }]) ∧
      (lineMnemonic line = "REQ.B".toList →
        assembleLine p line = .ok [{ rst := false, cmd := BitVec.ofNat 10 (0x200 + p.idB.toNat) }]) ∧
      (lineMnemonic line = "RESET".toList → assembleLine p line = .ok [{ rst := true, cmd := 0x000#10 }])) ∧
    (∀ (l : List Char) (n : Nat), lineOperands line = [l] → parseNumber l = some n → n < 256 →
      (lineMnemonic line = "PUSH".toList →
        assembleLine p line = .ok [{ rst := false, cmd := BitVec.ofNat 10 (0x100 + n) }]) ∧
      (lineMnemonic line = "REQ".toList →
        assembleLine p line = .ok [{ rst := false, cmd := BitVec.ofNat 10 (0x200 + n) }]) ∧
      (lineMnemonic line = "WAIT".toList →
        assembleLine p line = .ok (List.replicate n { rst := false, cmd := 0x000#10 }))) ∧
    (∀ ns : List Nat, lineMnemonic line = "FRAME".toList → (lineOperands line).map parseNumber = ns.map some →
      ns.length = 10 → (∀ n ∈ ns, n < 256) →
      assembleLine p line = .ok (ns.map (fun n => { rst := false, cmd := BitVec.ofNat 10 (0x100 + n) })))
end

