-- ==== Sys2Proof/Laws/Assembler.lean ====
section
/-!
SUPPORT. What each function of the assembler can answer, said once.
-/

namespace Sys2Proof.Machine

/-- An operand the assembler takes: a number of 30_encoding.md R53, inside 0..255. -/
theorem byteOperand_ok {l : List Char} {b : Byte} (h : byteOperand l = .ok b) :
    ∃ n, parseNumber l = some n ∧ n < 256 ∧ b = BitVec.ofNat 8 n := by
  simp only [byteOperand] at h
  split at h
  · cases h
  · rename_i n hn
    split at h
    · cases h; exact ⟨n, hn, by assumption, rfl⟩
    · cases h

theorem byteOperand_outOfRange {l : List Char} {n : Nat} (h : parseNumber l = some n) (hn : 256 ≤ n) :
    byteOperand l = .error .operandOutOfRange := by
  simp [byteOperand, h, Nat.not_lt.mpr hn]

theorem byteOperand_of_lt {l : List Char} {n : Nat} (h : parseNumber l = some n) (hn : n < 256) :
    byteOperand l = .ok (BitVec.ofNat 8 n) := by
  simp [byteOperand, h, hn]

theorem byteOperands_of_numbers {ls : List (List Char)} {ns : List Nat} (h : ls.map parseNumber = ns.map some)
    (hn : ∀ n ∈ ns, n < 256) : byteOperands ls = .ok (ns.map (BitVec.ofNat 8)) := by
  induction ls generalizing ns with
  | nil => rw [List.map_nil, eq_comm, List.map_eq_nil_iff] at h; subst h; rfl
  | cons l ls ih =>
    cases ns with
    | nil => cases h
    | cons n ns =>
      simp only [List.map_cons, List.cons.injEq] at h
      simp only [List.mem_cons, forall_eq_or_imp] at hn
      simp [byteOperands, byteOperand_of_lt h.1 hn.1, ih h.2 hn.2]

/-- A list of operands is taken only if each of them is. -/
theorem byteOperands_ok {ls : List (List Char)} {bs : List Byte} (h : byteOperands ls = .ok bs) :
    bs.length = ls.length ∧ ∀ l ∈ ls, ∃ b, byteOperand l = .ok b := by
  induction ls generalizing bs with
  | nil => cases h; simp
  | cons l ls ih =>
    simp only [byteOperands] at h
    split at h
    · cases h
    · rename_i b hb
      split at h
      · cases h
      · rename_i cs hc
        cases h
        obtain ⟨h1, h2⟩ := ih hc
        refine ⟨by simp [h1], ?_⟩
        simp only [List.mem_cons, forall_eq_or_imp]
        exact ⟨⟨b, hb⟩, h2⟩

theorem noOperand_ok {line r : AsmLine} {ls : List (List Char)} (h : noOperand line ls = .ok r) : ls = [] ∧ r = line := by
  cases ls with
  | nil => cases h; exact ⟨rfl, rfl⟩
  | cons l ls => cases h

theorem oneByte_ok {line : Byte → AsmLine} {r : AsmLine} {ls : List (List Char)} (h : oneByte line ls = .ok r) :
    ∃ l b, ls = [l] ∧ byteOperand l = .ok b ∧ r = line b := by
  match ls, h with
  | [l], h =>
    simp only [oneByte] at h
    split at h
    · rename_i b hb
      cases h; exact ⟨l, b, rfl, hb, rfl⟩
    · cases h

theorem oneByte_outOfRange (line : Byte → AsmLine) {l : List Char} {n : Nat} (h : parseNumber l = some n) (hn : 256 ≤ n) :
    oneByte line [l] = .error .operandOutOfRange := by
  simp [oneByte, byteOperand_outOfRange h hn]

theorem oneByte_count (line : Byte → AsmLine) {ls : List (List Char)} (h : ls.length ≠ 1) :
    oneByte line ls = .error .wrongOperandCount := by
  match ls, h with
  | [], _ => rfl
  | _ :: _ :: _, _ => rfl

theorem frameLine_ok {r : AsmLine} {ls : List (List Char)} (h : frameLine ls = .ok r) :
    ∃ bs, ls.length = 10 ∧ byteOperands ls = .ok bs ∧ r = .frame bs := by
  simp only [frameLine] at h
  split at h
  · split at h
    · rename_i bs hb
      cases h; exact ⟨bs, by assumption, hb, rfl⟩
    · cases h
  · cases h

/-- Whatever the command, each operand of an accepted line is one the assembler takes. -/
theorem parseCommand_operands {m : List Char} {ls : List (List Char)} {r : AsmLine} (h : parseCommand m ls = .ok r) :
    ∀ l ∈ ls, ∃ b, byteOperand l = .ok b := by
  have none_of {line : AsmLine} (h : noOperand line ls = .ok r) : ∀ l ∈ ls, ∃ b, byteOperand l = .ok b := by
    rw [(noOperand_ok h).1]; simp
  have one_of {line : Byte → AsmLine} (h : oneByte line ls = .ok r) : ∀ l ∈ ls, ∃ b, byteOperand l = .ok b := by
    obtain ⟨l, b, rfl, hb, -⟩ := oneByte_ok h
    intro k hk
    rw [List.mem_singleton.mp hk]
    exact ⟨b, hb⟩
  simp only [parseCommand] at h
  split at h
  · exact none_of h
  split at h
  · exact one_of h
  split at h
  · exact one_of h
  split at h
  · exact none_of h
  split at h
  · exact none_of h
  split at h
  · exact none_of h
  split at h
  · obtain ⟨bs, -, hb, -⟩ := frameLine_ok h
    exact (byteOperands_ok hb).2
  split at h
  · exact one_of h
  split at h
  · exact none_of h
  · cases h

/-- A line that says something is the command of its mnemonic and operands. -/
theorem assembleLine_of_error (p : Params) {line : List Char} {e : AsmError} (hb : lineBody line ≠ [])
    (h : parseCommand (lineMnemonic line) (lineOperands line) = .error e) : assembleLine p line = .error e := by
  simp [assembleLine, parseLine, hb, h]

theorem assembleLine_of_ok (p : Params) {line : List Char} {l : AsmLine} (hb : lineBody line ≠ [])
    (h : parseCommand (lineMnemonic line) (lineOperands line) = .ok l) : assembleLine p line = .ok (l.expand p) := by
  simp [assembleLine, parseLine, hb, h]

/-- A line with a mnemonic says something. -/
theorem lineBody_ne_nil {line m : List Char} (h : lineMnemonic line = m) (hm : m ≠ []) : lineBody line ≠ [] := by
  rintro e
  exact hm (by rw [← h, lineMnemonic, e]; rfl)

theorem assembleLine_ok {p : Params} {line : List Char} {xs : List PortSample} (hb : lineBody line ≠ [])
    (h : assembleLine p line = .ok xs) :
    ∃ l, parseCommand (lineMnemonic line) (lineOperands line) = .ok l ∧ xs = l.expand p := by
  cases hc : parseCommand (lineMnemonic line) (lineOperands line) with
  | ok l =>
    refine ⟨l, rfl, ?_⟩
    simp only [assembleLine, parseLine, hb, hc, if_false] at h
    cases h; rfl
  | error e => rw [assembleLine_of_error p hb hc] at h; cases h

theorem assemble_cons_ok {p : Params} {line : List Char} {xs : List PortSample} (lines : List (List Char))
    (h : assembleLine p line = .ok xs) :
    assemble p (line :: lines) = match assemble p lines with
      | .error e => .error e
      | .ok ys => .ok (xs ++ ys) := by
  cases hl : assemble p lines <;> simp [assemble, h, hl]

theorem assemble_cons_error {p : Params} {line : List Char} {e : AsmError} (lines : List (List Char))
    (h : assembleLine p line = .error e) : assemble p (line :: lines) = .error e := by
  simp [assemble, h]

/-! ### The text of a line -/

/-- A comment says nothing. -/
theorem stripComment_comment (l c : List Char) : stripComment (l ++ ';' :: c) = stripComment l := by
  induction l with
  | nil => rfl
  | cons d l ih =>
    by_cases h : d = ';'
    · subst h; rfl
    · simp only [stripComment, List.cons_append] at ih ⊢
      rw [List.takeWhile_cons_of_pos (by simpa using h), List.takeWhile_cons_of_pos (by simpa using h), ih]

theorem stripComment_of_none {l : List Char} (h : ';' ∉ l) : stripComment l = l := by
  rw [stripComment, List.takeWhile_eq_self_iff]
  intro c hc
  simp only [bne_iff_ne, ne_eq]
  exact fun e => h (e ▸ hc)

/-- The text without the blanks at its end. -/
def trimEnd (l : List Char) : List Char := (l.reverse.dropWhile isBlank).reverse

theorem trimBlanks_eq (l : List Char) : trimBlanks l = trimEnd (l.dropWhile isBlank) := rfl

theorem trimBlanks_blank {c : Char} (h : isBlank c = true) (l : List Char) : trimBlanks (c :: l) = trimBlanks l := by
  simp [trimBlanks, h]

theorem trimEnd_nil : trimEnd [] = [] := rfl

theorem trimEnd_cons (c : Char) (l : List Char) :
    trimEnd (c :: l) = if trimEnd l = [] ∧ isBlank c = true then [] else c :: trimEnd l := by
  by_cases hl : l.reverse.dropWhile isBlank = []
  · have h0 : trimEnd l = [] := by simp only [trimEnd, hl, List.reverse_nil]
    have h1 : trimEnd (c :: l) = ([c].dropWhile isBlank).reverse := by
      simp only [trimEnd, List.reverse_cons, List.dropWhile_append, hl, List.isEmpty_nil, if_true]
    by_cases hc : isBlank c = true <;> simp [h0, h1, hc]
  · have h0 : trimEnd l ≠ [] := by simpa only [trimEnd, ne_eq, List.reverse_eq_nil_iff] using hl
    have hne : (l.reverse.dropWhile isBlank).isEmpty = false := by simpa only [List.isEmpty_eq_false_iff] using hl
    rw [if_neg (fun h => h0 h.1)]
    simp only [trimEnd, List.reverse_cons, List.dropWhile_append, hne, Bool.false_eq_true, if_false, List.reverse_append,
      List.reverse_nil, List.nil_append, List.singleton_append]

theorem trimEnd_cons_solid {c : Char} (h : isBlank c = false) (l : List Char) : trimEnd (c :: l) = c :: trimEnd l := by
  rw [trimEnd_cons, if_neg (by simp [h])]

theorem trimEnd_append_solid {m : List Char} (h : ∀ c ∈ m, isBlank c = false) (l : List Char) :
    trimEnd (m ++ l) = m ++ trimEnd l := by
  induction m with
  | nil => rfl
  | cons c m ih =>
    simp only [List.mem_cons, forall_eq_or_imp] at h
    rw [List.cons_append, trimEnd_cons_solid h.1, ih h.2, List.cons_append]

theorem trimEnd_idem (l : List Char) : trimEnd (trimEnd l) = trimEnd l := by
  induction l with
  | nil => rfl
  | cons c l ih =>
    rw [trimEnd_cons]
    by_cases h : trimEnd l = [] ∧ isBlank c = true
    · rw [if_pos h, trimEnd_nil]
    · rw [if_neg h, trimEnd_cons, ih, if_neg h]

theorem trimBlanks_solid {c : Char} (h : isBlank c = false) (l : List Char) : trimBlanks (c :: l) = c :: trimEnd l := by
  rw [trimBlanks_eq, List.dropWhile_cons_of_neg (by simp [h]), trimEnd_cons_solid h]

/-- Blanks at the end do not matter to a text whose both ends are trimmed. -/
theorem trimBlanks_trimEnd (l : List Char) : trimBlanks (trimEnd l) = trimBlanks l := by
  induction l with
  | nil => rfl
  | cons c l ih =>
    cases hc : isBlank c with
    | false => rw [trimEnd_cons_solid hc, trimBlanks_solid hc, trimBlanks_solid hc, trimEnd_idem]
    | true =>
      rw [trimEnd_cons, trimBlanks_blank hc]
      by_cases h : trimEnd l = []
      · rw [if_pos ⟨h, hc⟩, ← ih, h]
      · rw [if_neg (fun k => h k.1), trimBlanks_blank hc, ih]

theorem lineBody_solid {c : Char} {l : List Char} (hs : ';' ∉ c :: l) (h : isBlank c = false) :
    lineBody (c :: l) = c :: trimEnd l := by
  rw [lineBody, stripComment_of_none hs, trimBlanks_solid h]

/-- A text without a comma is one piece; a comma ends a piece. -/
theorem splitCommas_none {w : List Char} (h : ',' ∉ w) : splitCommas w = [w] := by
  induction w with
  | nil => rfl
  | cons c w ih =>
    simp only [List.mem_cons, not_or] at h
    rw [splitCommas, if_neg (by simpa using Ne.symm h.1), ih h.2]

theorem splitCommas_append {w : List Char} (h : ',' ∉ w) (l : List Char) :
    splitCommas (w ++ ',' :: l) = w :: splitCommas l := by
  induction w with
  | nil => rfl
  | cons c w ih =>
    simp only [List.mem_cons, not_or] at h
    rw [List.cons_append, splitCommas, if_neg (by simpa using Ne.symm h.1), ih h.2]

theorem trimEnd_solid {w : List Char} (h : ∀ c ∈ w, isBlank c = false) : trimEnd w = w := by
  rw [← List.append_nil w, trimEnd_append_solid h, trimEnd_nil]

theorem trimBlanks_word {w : List Char} (h : ∀ c ∈ w, isBlank c = false) : trimBlanks w = w := by
  cases w with
  | nil => rfl
  | cons c w =>
    rw [trimBlanks_solid (h c (by simp)), trimEnd_solid (fun d hd => h d (List.mem_cons_of_mem _ hd))]

/-- A mnemonic, and what follows it after a space, are read apart. -/
theorem lineMnemonic_append {m rest : List Char} (hm : m ≠ []) (hb : ∀ c ∈ m, isBlank c = false) (hs : ';' ∉ m ++ ' ' :: rest) :
    lineMnemonic (m ++ ' ' :: rest) = m ∧ lineOperands (m ++ ' ' :: rest) = operandTexts rest := by
  obtain ⟨c, m, rfl⟩ := List.exists_cons_of_ne_nil hm
  have hsolid : ∀ d ∈ c :: m, (fun c => !isBlank c) d = true := fun d hd => by simp [hb d hd]
  have hbody : lineBody (c :: m ++ ' ' :: rest) = c :: m ++ trimEnd (' ' :: rest) := by
    rw [← trimEnd_append_solid hb, lineBody, stripComment_of_none hs, trimBlanks_eq]
    congr 1
    exact List.dropWhile_cons_of_neg (by simp [hb c (by simp)])
  have hend : (trimEnd (' ' :: rest)).takeWhile (fun c => !isBlank c) = [] ∧
      (trimEnd (' ' :: rest)).dropWhile (fun c => !isBlank c) = trimEnd (' ' :: rest) := by
    rw [trimEnd_cons]
    split <;> exact ⟨rfl, rfl⟩
  rw [lineMnemonic, lineOperands, hbody, List.takeWhile_append_of_pos hsolid, List.dropWhile_append_of_pos hsolid, hend.1, hend.2,
    List.append_nil]
  exact ⟨rfl, by rw [operandTexts, operandTexts, trimBlanks_trimEnd, trimBlanks_blank rfl]⟩

end Sys2Proof.Machine
end

