-- ==== Sys2Proof/Laws/Encoding.lean ====
section
/-!
SUPPORT. The two fields of a command word, and what the decoder reads from a word given by its fields.
-/

namespace Sys2Proof

@[simp] theorem opField_cmdWord (op : BitVec 2) (d : Byte) : opField (cmdWord op d) = op := by
  apply BitVec.eq_of_getElem_eq
  intro i hi
  simp only [opField, cmdWord, BitVec.getElem_extractLsb']
  rw [BitVec.getLsbD_append, if_neg (by omega), Nat.add_sub_cancel_left, BitVec.getLsbD_eq_getElem hi]

@[simp] theorem dataField_cmdWord (op : BitVec 2) (d : Byte) : dataField (cmdWord op d) = d := by
  apply BitVec.eq_of_getElem_eq
  intro i hi
  simp only [dataField, cmdWord, BitVec.getElem_extractLsb']
  rw [BitVec.getLsbD_append, if_pos (by omega), Nat.zero_add, BitVec.getLsbD_eq_getElem hi]

/-- A command word is its two fields: no bit lies outside them. -/
theorem cmdWord_fields (w : CmdWord) : cmdWord (opField w) (dataField w) = w := by
  apply BitVec.eq_of_getElem_eq
  intro i hi
  rw [← BitVec.getLsbD_eq_getElem hi, ← BitVec.getLsbD_eq_getElem hi]
  simp only [opField, dataField, cmdWord]
  rw [BitVec.getLsbD_append]
  by_cases h : i < 8
  · simp [h]
  · have : i - 8 < 2 := by omega
    simp [h, this, Nat.add_sub_cancel' (Nat.le_of_not_lt h)]

/-- The four values of the operation field. -/
theorem op_cases (x : BitVec 2) : x = 0b00#2 ∨ x = 0b01#2 ∨ x = 0b10#2 ∨ x = 0b11#2 := by
  revert x; decide

theorem decode_idle {w : CmdWord} (h : opField w = 0b00#2) : decode w = .idle (dataField w) := by simp [decode, h]

theorem decode_push {w : CmdWord} (h : opField w = 0b01#2) : decode w = .push (dataField w) := by simp [decode, h]

theorem decode_req {w : CmdWord} (h : opField w = 0b10#2) : decode w = .req (dataField w) := by simp [decode, h]

theorem decode_reserved {w : CmdWord} (h : opField w = 0b11#2) : decode w = .reserved (dataField w) := by simp [decode, h]

/-- The decoder's four cases, by the operation field alone. -/
theorem decode_cases (w : CmdWord) :
    (opField w = 0b00#2 ∧ decode w = .idle (dataField w)) ∨ (opField w = 0b01#2 ∧ decode w = .push (dataField w)) ∨
    (opField w = 0b10#2 ∧ decode w = .req (dataField w)) ∨ (opField w = 0b11#2 ∧ decode w = .reserved (dataField w)) := by
  rcases op_cases (opField w) with h | h | h | h
  · exact .inl ⟨h, decode_idle h⟩
  · exact .inr (.inl ⟨h, decode_push h⟩)
  · exact .inr (.inr (.inl ⟨h, decode_req h⟩))
  · exact .inr (.inr (.inr ⟨h, decode_reserved h⟩))

end Sys2Proof
end

