-- ==== Sys2Proof/Laws/Memory.lean ====
section
/-!
SUPPORT. What the frame store's two operations do, and that they keep its canonical form.
-/

namespace Sys2Proof.Machine.Memory

@[simp] theorem read_nil (i : Fin 10) : read [] i = Config.frameReset := rfl

theorem read_cons (c : Host.Cell) (m : Memory) (i : Fin 10) :
    read (c :: m) i = if c.1 = i.val then c.2 else read m i := rfl

/-- A byte no entry names reads as at reset. -/
theorem read_of_not_listed {m : Memory} {i : Fin 10} (h : ∀ c ∈ m, c.1 ≠ i.val) : read m i = Config.frameReset := by
  induction m with
  | nil => rfl
  | cons c m ih =>
    simp only [List.mem_cons, forall_eq_or_imp] at h
    simp [read_cons, h.1, ih h.2]

theorem read_eraseCell_same (m : Memory) (i : Fin 10) : read (eraseCell m i) i = Config.frameReset :=
  read_of_not_listed (by simp [eraseCell])

theorem read_eraseCell_other (m : Memory) {i j : Fin 10} (h : j ≠ i) : read (eraseCell m i) j = read m j := by
  have hv : i.val ≠ j.val := fun e => h (Fin.ext e.symm)
  induction m with
  | nil => rfl
  | cons c m ih =>
    simp only [eraseCell] at ih
    by_cases hc : c.1 = i.val
    · simp [eraseCell, read_cons, hc, hv, ih]
    · simp [eraseCell, read_cons, hc, ih]

theorem read_insertCell_other (c : Host.Cell) (m : Memory) {j : Fin 10} (h : c.1 ≠ j.val) :
    read (insertCell c m) j = read m j := by
  induction m with
  | nil => simp [insertCell, read_cons, h]
  | cons d m ih =>
    by_cases hd : c.1 < d.1
    · simp [insertCell, hd, read_cons, h]
    · simp [insertCell, hd, read_cons, ih]

theorem read_insertCell_same (v : Byte) {m : Memory} {i : Fin 10} (h : ∀ c ∈ m, c.1 ≠ i.val) :
    read (insertCell (i.val, v) m) i = v := by
  induction m with
  | nil => simp [insertCell, read_cons]
  | cons d m ih =>
    simp only [List.mem_cons, forall_eq_or_imp] at h
    by_cases hd : i.val < d.1
    · simp [insertCell, hd, read_cons]
    · simp [insertCell, hd, read_cons, h.1, ih h.2]

/-- A read after a write to the same index gives the value written. -/
@[simp] theorem read_write_same (m : Memory) (i : Fin 10) (v : Byte) : read (write m i v) i = v := by
  by_cases hv : v = Config.frameReset
  · simp [write, hv, read_eraseCell_same]
  · simp only [write, hv, if_false]
    exact read_insertCell_same v (by simp [eraseCell])

/-- A write leaves every other index alone. -/
theorem read_write_other (m : Memory) (v : Byte) {i j : Fin 10} (h : j ≠ i) : read (write m i v) j = read m j := by
  by_cases hv : v = Config.frameReset
  · simp [write, hv, read_eraseCell_other m h]
  · have hi : i.val ≠ j.val := fun e => h (Fin.ext e.symm)
    simp only [write, hv, if_false]
    rw [read_insertCell_other _ _ hi, read_eraseCell_other m h]

theorem wf_nil : wf [] := by simp [wf]

theorem wf_eraseCell {m : Memory} (h : m.wf) (i : Fin 10) : (eraseCell m i).wf :=
  ⟨h.1.filter _, fun c hc => h.2 c (List.mem_filter.mp hc).1⟩

theorem mem_insertCell {c d : Host.Cell} {m : Memory} : d ∈ insertCell c m ↔ d = c ∨ d ∈ m := by
  induction m with
  | nil => simp [insertCell]
  | cons e m ih =>
    by_cases he : c.1 < e.1
    · simp [insertCell, he]
    · simp only [insertCell, he, if_false, List.mem_cons, ih]
      tauto

theorem wf_insertCell {c : Host.Cell} {m : Memory} (h : m.wf) (hc : c.1 < 10 ∧ c.2 ≠ Config.frameReset)
    (hm : ∀ d ∈ m, d.1 ≠ c.1) : (insertCell c m).wf := by
  refine ⟨?_, fun d hd => (mem_insertCell.mp hd).elim (fun e => e ▸ hc) (h.2 d)⟩
  obtain ⟨hp, -⟩ := h
  induction m with
  | nil => simp [insertCell]
  | cons e m ih =>
    simp only [List.mem_cons, forall_eq_or_imp] at hm
    rw [List.pairwise_cons] at hp
    by_cases he : c.1 < e.1
    · rw [insertCell, if_pos he, List.pairwise_cons, List.pairwise_cons]
      simp only [List.mem_cons, forall_eq_or_imp]
      exact ⟨⟨he, fun d hd => he.trans (hp.1 d hd)⟩, hp.1, hp.2⟩
    · simp only [insertCell, he, if_false, List.pairwise_cons]
      refine ⟨fun d hd => ?_, ih hm.2 hp.2⟩
      rcases mem_insertCell.mp hd with rfl | hd
      · exact lt_of_le_of_ne (not_lt.mp he) hm.1
      · exact hp.1 d hd

/-- Every write keeps the canonical form. -/
theorem wf_write {m : Memory} (h : m.wf) (i : Fin 10) (v : Byte) : (write m i v).wf := by
  by_cases hv : v = Config.frameReset
  · simpa [write, hv] using wf_eraseCell h i
  · simp only [write, hv, if_false]
    exact wf_insertCell (wf_eraseCell h i) ⟨i.isLt, hv⟩ (by simp [eraseCell])

/-- The tail of a canonical store reads as at reset wherever its head has its entry. -/
theorem wf_tail {c : Host.Cell} {m : Memory} (h : wf (c :: m)) : m.wf ∧ ∀ d ∈ m, c.1 < d.1 :=
  ⟨⟨(List.pairwise_cons.mp h.1).2, fun d hd => h.2 d (List.mem_cons_of_mem _ hd)⟩, (List.pairwise_cons.mp h.1).1⟩

/-- A canonical store that reads as at reset everywhere lists nothing. -/
theorem eq_nil_of_reads {m : Memory} (h : m.wf) (hr : ∀ i, read m i = Config.frameReset) : m = [] := by
  cases m with
  | nil => rfl
  | cons c m =>
    have hc := h.2 c List.mem_cons_self
    exact absurd (by simpa [read_cons] using hr ⟨c.1, hc.1⟩) hc.2

/-- The head's index of one canonical store is not below that of another with the same reads. -/
theorem head_not_lt {c d : Host.Cell} {m n : Memory} (hm : wf (c :: m)) (hn : wf (d :: n))
    (hr : ∀ i, read (c :: m) i = read (d :: n) i) : ¬ c.1 < d.1 := by
  intro hlt
  have hc := hm.2 c List.mem_cons_self
  have h1 : read (c :: m) ⟨c.1, hc.1⟩ = c.2 := by simp [read_cons]
  have h2 : read (d :: n) ⟨c.1, hc.1⟩ = Config.frameReset := by
    apply read_of_not_listed
    intro e he
    rcases List.mem_cons.mp he with rfl | he
    · exact (ne_of_lt hlt).symm
    · exact (ne_of_lt (hlt.trans ((wf_tail hn).2 e he))).symm
  exact hc.2 (by rw [← h1, hr, h2])

/-- Equal memories are equal data: canonical stores with the same ten bytes are the same list. -/
theorem eq_of_reads {m n : Memory} (hm : m.wf) (hn : n.wf) (hr : ∀ i, read m i = read n i) : m = n := by
  induction m generalizing n with
  | nil => exact (eq_nil_of_reads hn (fun i => by rw [← hr i]; rfl)).symm
  | cons c m ih =>
    cases n with
    | nil => exact eq_nil_of_reads hm (fun i => by rw [hr i]; rfl)
    | cons d n =>
      have hcd : c.1 = d.1 :=
        le_antisymm (not_lt.mp (head_not_lt hn hm fun i => (hr i).symm)) (not_lt.mp (head_not_lt hm hn hr))
      have hc := hm.2 c List.mem_cons_self
      have hv : c.2 = d.2 := by simpa [read_cons, hcd] using hr ⟨c.1, hc.1⟩
      have htail : m = n := by
        refine ih (wf_tail hm).1 (wf_tail hn).1 (fun i => ?_)
        by_cases hi : c.1 = i.val
        · rw [read_of_not_listed (fun e he => hi ▸ (ne_of_lt ((wf_tail hm).2 e he)).symm),
            read_of_not_listed (fun e he => hi ▸ hcd ▸ (ne_of_lt ((wf_tail hn).2 e he)).symm)]
        · have hd : d.1 ≠ i.val := hcd ▸ hi
          simpa [read_cons, hi, hd] using hr i
      rw [htail, Prod.ext hcd hv]

end Sys2Proof.Machine.Memory
end

