-- ==== Sys2Proof/Laws/Normalizer.lean ====
section
/-!
SUPPORT. NORM's three bands, its range, and the wires of the response.
-/

namespace Sys2Proof.Machine

/-- Upper band: raw 156..255. -/
theorem norm_upper (dz : Bool) {raw : Byte} (h : 156 ≤ raw.toNat) : norm dz raw = (raw.toNat : Int) - 156 := by
  simp only [norm]
  rw [if_pos (by simp only [Config.center, Config.deadzone]; omega)]
  simp only [Config.center, Config.deadzone]; omega

/-- Lower band: raw 0..100. -/
theorem norm_lower (dz : Bool) {raw : Byte} (h : raw.toNat ≤ 100) : norm dz raw = (raw.toNat : Int) - 100 := by
  simp only [norm]
  rw [if_neg (by simp only [Config.center, Config.deadzone]; omega), if_pos (by simp only [Config.center, Config.deadzone]; omega)]
  simp only [Config.center, Config.deadzone]; omega

/-- Inner band: raw 101..155. -/
theorem norm_inner (dz : Bool) {raw : Byte} (h1 : 101 ≤ raw.toNat) (h2 : raw.toNat ≤ 155) :
    norm dz raw = if dz then 0 else (raw.toNat : Int) - 128 := by
  simp only [norm]
  rw [if_neg (by simp only [Config.center, Config.deadzone]; omega), if_neg (by simp only [Config.center, Config.deadzone]; omega)]

/-- Everything NORM can answer, by the band of its input. -/
theorem norm_cases (dz : Bool) (raw : Byte) :
    (156 ≤ raw.toNat ∧ norm dz raw = (raw.toNat : Int) - 156) ∨
    (raw.toNat ≤ 100 ∧ norm dz raw = (raw.toNat : Int) - 100) ∨
    (101 ≤ raw.toNat ∧ raw.toNat ≤ 155 ∧ norm dz raw = if dz then 0 else (raw.toNat : Int) - 128) := by
  by_cases h1 : 156 ≤ raw.toNat
  · exact .inl ⟨h1, norm_upper dz h1⟩
  · by_cases h2 : raw.toNat ≤ 100
    · exact .inr (.inl ⟨h2, norm_lower dz h2⟩)
    · exact .inr (.inr ⟨by omega, by omega, norm_inner dz (by omega) (by omega)⟩)

/-- `int_s8` undoes `s8` on the integers that `s8` is for (00_scope.md R9). -/
theorem intS8_s8 {v : Int} (h1 : -128 ≤ v) (h2 : v ≤ 127) : intS8 (s8 v) = v := by
  simp only [intS8, s8, BitVec.toInt_ofInt]
  rw [Int.bmod_def]
  omega

end Sys2Proof.Machine
end

