-- ==== Sys2Proof/Laws/State.lean ====
section
/-!
SUPPORT. One lemma per field per update of State, so that no proof unfolds a record update.
-/

namespace Sys2Proof.Machine.State

variable (s : State)

@[simp] theorem storeByte_frame (i : Fin 10) (v : Byte) : (s.storeByte i v).frame = s.frame.write i v := rfl
@[simp] theorem storeByte_cnt (i : Fin 10) (v : Byte) : (s.storeByte i v).cnt = s.cnt := rfl
@[simp] theorem storeByte_lastId (i : Fin 10) (v : Byte) : (s.storeByte i v).lastId = s.lastId := rfl
@[simp] theorem storeByte_led (i : Fin 10) (v : Byte) : (s.storeByte i v).led = s.led := rfl
@[simp] theorem storeByte_inputs (i : Fin 10) (v : Byte) : (s.storeByte i v).inputs = s.inputs := rfl
@[simp] theorem storeByte_rsp (i : Fin 10) (v : Byte) : (s.storeByte i v).rsp = s.rsp := rfl

@[simp] theorem setCnt_frame (c : Fin 11) : (s.setCnt c).frame = s.frame := rfl
@[simp] theorem setCnt_cnt (c : Fin 11) : (s.setCnt c).cnt = c := rfl
@[simp] theorem setCnt_lastId (c : Fin 11) : (s.setCnt c).lastId = s.lastId := rfl
@[simp] theorem setCnt_led (c : Fin 11) : (s.setCnt c).led = s.led := rfl
@[simp] theorem setCnt_inputs (c : Fin 11) : (s.setCnt c).inputs = s.inputs := rfl
@[simp] theorem setCnt_rsp (c : Fin 11) : (s.setCnt c).rsp = s.rsp := rfl

@[simp] theorem setLastId_frame (v : Byte) : (s.setLastId v).frame = s.frame := rfl
@[simp] theorem setLastId_cnt (v : Byte) : (s.setLastId v).cnt = s.cnt := rfl
@[simp] theorem setLastId_lastId (v : Byte) : (s.setLastId v).lastId = v := rfl
@[simp] theorem setLastId_led (v : Byte) : (s.setLastId v).led = s.led := rfl
@[simp] theorem setLastId_inputs (v : Byte) : (s.setLastId v).inputs = s.inputs := rfl
@[simp] theorem setLastId_rsp (v : Byte) : (s.setLastId v).rsp = s.rsp := rfl

@[simp] theorem setLed_frame (v : Bool) : (s.setLed v).frame = s.frame := rfl
@[simp] theorem setLed_cnt (v : Bool) : (s.setLed v).cnt = s.cnt := rfl
@[simp] theorem setLed_lastId (v : Bool) : (s.setLed v).lastId = s.lastId := rfl
@[simp] theorem setLed_led (v : Bool) : (s.setLed v).led = v := rfl
@[simp] theorem setLed_inputs (v : Bool) : (s.setLed v).inputs = s.inputs := rfl
@[simp] theorem setLed_rsp (v : Bool) : (s.setLed v).rsp = s.rsp := rfl

@[simp] theorem respond_frame (r : Response) : (s.respond r).frame = s.frame := rfl
@[simp] theorem respond_cnt (r : Response) : (s.respond r).cnt = s.cnt := rfl
@[simp] theorem respond_lastId (r : Response) : (s.respond r).lastId = s.lastId := rfl
@[simp] theorem respond_led (r : Response) : (s.respond r).led = s.led := rfl
@[simp] theorem respond_inputs (r : Response) : (s.respond r).inputs = s.inputs := rfl
@[simp] theorem respond_rsp (r : Response) : (s.respond r).rsp = r := rfl

@[simp] theorem popInput_frame : (s.popInput).frame = s.frame := rfl
@[simp] theorem popInput_cnt : (s.popInput).cnt = s.cnt := rfl
@[simp] theorem popInput_lastId : (s.popInput).lastId = s.lastId := rfl
@[simp] theorem popInput_led : (s.popInput).led = s.led := rfl
@[simp] theorem popInput_inputs : (s.popInput).inputs = s.inputs.tail := rfl
@[simp] theorem popInput_rsp : (s.popInput).rsp = s.rsp := rfl

@[simp] theorem drive_frame (x : PortSample) : (s.drive x).frame = s.frame := rfl
@[simp] theorem drive_cnt (x : PortSample) : (s.drive x).cnt = s.cnt := rfl
@[simp] theorem drive_lastId (x : PortSample) : (s.drive x).lastId = s.lastId := rfl
@[simp] theorem drive_led (x : PortSample) : (s.drive x).led = s.led := rfl
@[simp] theorem drive_inputs (x : PortSample) : (s.drive x).inputs = x :: s.inputs := rfl
@[simp] theorem drive_rsp (x : PortSample) : (s.drive x).rsp = s.rsp := rfl

@[simp] theorem resetBlock_frame : s.resetBlock.frame = [] := rfl
@[simp] theorem resetBlock_cnt : s.resetBlock.cnt = 0 := rfl
@[simp] theorem resetBlock_lastId : s.resetBlock.lastId = Config.idNeutral := rfl
@[simp] theorem resetBlock_led : s.resetBlock.led = false := rfl
@[simp] theorem resetBlock_inputs : s.resetBlock.inputs = s.inputs := rfl
@[simp] theorem resetBlock_rsp : s.resetBlock.rsp = Response.empty .none := rfl

@[simp] theorem reset_frame : State.reset.frame = [] := rfl
@[simp] theorem reset_cnt : State.reset.cnt = 0 := rfl
@[simp] theorem reset_lastId : State.reset.lastId = Config.idNeutral := rfl
@[simp] theorem reset_led : State.reset.led = false := rfl
@[simp] theorem reset_inputs : State.reset.inputs = [] := rfl
@[simp] theorem reset_rsp : State.reset.rsp = Response.empty .none := rfl

/-- The first of the listed inputs is what a step samples. -/
theorem presented_cons {x : PortSample} {xs : List PortSample} (h : s.inputs = x :: xs) : s.presented = x := by
  simp [presented, h]

/-- With no input listed, a step samples an `IDLE`. -/
theorem presented_nil (h : s.inputs = []) : s.presented = idleSample := by
  simp [presented, h]

@[simp] theorem drive_presented (x : PortSample) : (s.drive x).presented = x := rfl

@[simp] theorem drive_popInput (x : PortSample) : (s.drive x).popInput = s := rfl

/-- Two states with the same fields are the same. -/
theorem ext_fields {s t : State} (h1 : s.frame = t.frame) (h2 : s.cnt = t.cnt) (h3 : s.lastId = t.lastId)
    (h4 : s.led = t.led) (h5 : s.inputs = t.inputs) (h6 : s.rsp = t.rsp) : s = t := by
  cases s; cases t; simp_all

end Sys2Proof.Machine.State
end

