-- ==== Sys2Proof/Laws/Ops.lean ====
section
/-!
SUPPORT. What each shared operation does, said once: the pointer of PUSH, the effect of PUSH, the cases of REQ.
-/

namespace Sys2Proof.Machine

theorem ready_iff (s : State) : s.ready = true ↔ s.cnt = 10 := by simp [State.ready]

theorem cnt_val_eq_ten (c : Fin 11) : c = 10 ↔ c.val = 10 := Fin.ext_iff

theorem pushIndex_of_lt {c : Fin 11} (h : c.val < 10) : (pushIndex c).val = c.val := by simp [pushIndex, h]

theorem pushIndex_of_full {c : Fin 11} (h : c.val = 10) : (pushIndex c).val = 0 := by simp [pushIndex, h]

/-- The pointer of PUSH is the counter modulo the frame length. -/
theorem pushIndex_val (c : Fin 11) : (pushIndex c).val = c.val % 10 := by
  by_cases h : c.val < 10
  · rw [pushIndex_of_lt h, Nat.mod_eq_of_lt h]
  · have h10 : c.val = 10 := by omega
    rw [pushIndex_of_full h10, h10]

@[simp] theorem cntAfterPush_val (c : Fin 11) : (cntAfterPush c).val = (pushIndex c).val + 1 := by simp [cntAfterPush]

theorem cntAfterPush_ne_zero (c : Fin 11) : cntAfterPush c ≠ 0 := Fin.succ_ne_zero _

section push
variable (b : Byte) (s : State)

@[simp] theorem pushByte_frame : (pushByte b s).frame = s.frame.write (pushIndex s.cnt) b := rfl
@[simp] theorem pushByte_cnt : (pushByte b s).cnt = cntAfterPush s.cnt := rfl
@[simp] theorem pushByte_lastId : (pushByte b s).lastId = s.lastId := rfl
@[simp] theorem pushByte_led : (pushByte b s).led = true := rfl
@[simp] theorem pushByte_inputs : (pushByte b s).inputs = s.inputs := rfl
@[simp] theorem pushByte_rsp : (pushByte b s).rsp = Response.empty .none := rfl

end push

section quiet
variable (s : State)

@[simp] theorem quiet_frame : (quiet s).frame = s.frame := rfl
@[simp] theorem quiet_cnt : (quiet s).cnt = s.cnt := rfl
@[simp] theorem quiet_lastId : (quiet s).lastId = s.lastId := rfl
@[simp] theorem quiet_led : (quiet s).led = s.led := rfl
@[simp] theorem quiet_inputs : (quiet s).inputs = s.inputs := rfl
@[simp] theorem quiet_rsp : (quiet s).rsp = Response.empty .none := rfl

end quiet

section ids
variable (p : Params)

/-- The constraint of 00_scope.md R7, read from the proof the parameters carry. -/
theorem Params.legal : p.idA ≠ 0#8 ∧ p.idB ≠ 0#8 ∧ p.idA ≠ p.idB := by
  have h := p.ids.legal
  simp only [legalIds, Bool.and_eq_true, bne_iff_ne, ne_eq] at h
  exact ⟨h.1.1, h.1.2, h.2⟩

theorem resolveId_zero_A : resolveId p 0#8 p.idA = p.idB := by simp [resolveId]

theorem resolveId_zero_other {last : Byte} (h : last ≠ p.idA) : resolveId p 0#8 last = p.idA := by simp [resolveId, h]

theorem resolveId_explicit {reqId : Byte} (h : reqId ≠ 0#8) (last : Byte) : resolveId p reqId last = reqId := by
  rw [resolveId, if_neg h]

/-- Everything identifier resolution can answer. -/
theorem resolveId_cases (reqId last : Byte) :
    (reqId = 0#8 ∧ last = p.idA ∧ resolveId p reqId last = p.idB) ∨
    (reqId = 0#8 ∧ last ≠ p.idA ∧ resolveId p reqId last = p.idA) ∨
    (reqId ≠ 0#8 ∧ resolveId p reqId last = reqId) := by
  by_cases h : reqId = 0#8
  · by_cases hl : last = p.idA
    · exact .inl ⟨h, hl, by rw [h, hl, resolveId_zero_A]⟩
    · exact .inr (.inl ⟨h, hl, by rw [h, resolveId_zero_other p hl]⟩)
  · exact .inr (.inr ⟨h, resolveId_explicit p h last⟩)

end ids

/-- The block the model runs has the normative reading of the inner band (42_stick_normalizer.md R76). -/
@[simp] theorem params_dzInnerZero : Config.params.dzInnerZero = false := rfl

section request
variable (p : Params) (reqId : Byte) (s : State)

theorem request_notReady (h : s.cnt ≠ 10) : request p reqId s = s.respond (Response.empty .notReady) := by
  simp [request, State.ready, h]

theorem request_A (h : s.cnt = 10) (hid : resolveId p reqId s.lastId = p.idA) :
    request p reqId s = ((s.setLastId p.idA).setLed false).respond (reportA p s.frame) := by
  simp [request, State.ready, h, hid, answer]

theorem request_B (h : s.cnt = 10) (hid : resolveId p reqId s.lastId = p.idB) :
    request p reqId s = ((s.setLastId p.idB).setLed false).respond (reportB p s.frame) := by
  simp [request, State.ready, h, hid, answer, (Params.legal p).2.2.symm]

theorem request_unrecognized (h : s.cnt = 10) (hA : resolveId p reqId s.lastId ≠ p.idA)
    (hB : resolveId p reqId s.lastId ≠ p.idB) :
    request p reqId s = (s.setLastId (resolveId p reqId s.lastId)).respond (Response.empty .unrecognized) := by
  simp [request, State.ready, h, hA, hB, answer]

/-- Everything a REQ can do (41_synthesis.md R62). -/
theorem request_cases :
    (s.cnt ≠ 10 ∧ request p reqId s = s.respond (Response.empty .notReady)) ∨
    (s.cnt = 10 ∧ resolveId p reqId s.lastId = p.idA ∧
      request p reqId s = ((s.setLastId p.idA).setLed false).respond (reportA p s.frame)) ∨
    (s.cnt = 10 ∧ resolveId p reqId s.lastId = p.idB ∧
      request p reqId s = ((s.setLastId p.idB).setLed false).respond (reportB p s.frame)) ∨
    (s.cnt = 10 ∧ resolveId p reqId s.lastId ≠ p.idA ∧ resolveId p reqId s.lastId ≠ p.idB ∧
      request p reqId s = (s.setLastId (resolveId p reqId s.lastId)).respond (Response.empty .unrecognized)) := by
  by_cases h : s.cnt = 10
  · by_cases hA : resolveId p reqId s.lastId = p.idA
    · exact .inr (.inl ⟨h, hA, request_A p reqId s h hA⟩)
    · by_cases hB : resolveId p reqId s.lastId = p.idB
      · exact .inr (.inr (.inl ⟨h, hB, request_B p reqId s h hB⟩))
      · exact .inr (.inr (.inr ⟨h, hA, hB, request_unrecognized p reqId s h hA hB⟩))
  · exact .inl ⟨h, request_notReady p reqId s h⟩

/-- REQ writes neither the frame store nor the counter (41_synthesis.md R69). -/
@[simp] theorem request_frame : (request p reqId s).frame = s.frame := by
  rcases request_cases p reqId s with ⟨-, e⟩ | ⟨-, -, e⟩ | ⟨-, -, e⟩ | ⟨-, -, -, e⟩ <;> rw [e] <;> rfl

@[simp] theorem request_cnt : (request p reqId s).cnt = s.cnt := by
  rcases request_cases p reqId s with ⟨-, e⟩ | ⟨-, -, e⟩ | ⟨-, -, e⟩ | ⟨-, -, -, e⟩ <;> rw [e] <;> rfl

@[simp] theorem request_inputs : (request p reqId s).inputs = s.inputs := by
  rcases request_cases p reqId s with ⟨-, e⟩ | ⟨-, -, e⟩ | ⟨-, -, e⟩ | ⟨-, -, -, e⟩ <;> rw [e] <;> rfl

/-- A ready REQ records the identifier it resolves to (41_synthesis.md R64). -/
theorem request_lastId (h : s.cnt = 10) : (request p reqId s).lastId = resolveId p reqId s.lastId := by
  rcases request_cases p reqId s with ⟨h', -⟩ | ⟨-, hid, e⟩ | ⟨-, hid, e⟩ | ⟨-, -, -, e⟩
  · exact absurd h h'
  all_goals rw [e]; simp_all

/-- REQ reads neither port: other inputs and another earlier response change nothing but the inputs themselves. -/
theorem request_ports (xs : List PortSample) (r : Response) :
    request p reqId { s with inputs := xs, rsp := r } = { request p reqId s with inputs := xs } := by
  rcases request_cases p reqId s with ⟨h, e⟩ | ⟨h, hid, e⟩ | ⟨h, hid, e⟩ | ⟨h, hA, hB, e⟩ <;> rw [e]
  · exact request_notReady p reqId _ h
  · exact request_A p reqId _ h hid
  · exact request_B p reqId _ h hid
  · exact request_unrecognized p reqId _ h hA hB

end request

/-- The bytes of layout A, one lemma for all of them. -/
theorem layoutA_getElem (m : Memory) (j : Fin 7) :
    (layoutA m)[j] = if j.val = 0 then m.read 0 else if j.val = 1 then m.read 1 else 0#8 := by
  match j with
  | 0 | 1 | 2 | 3 | 4 | 5 | 6 => rfl

@[simp] theorem Response.empty_status (st : Status) : (Response.empty st).status = st := rfl
@[simp] theorem Response.empty_id (st : Status) : (Response.empty st).id = 0#8 := rfl
@[simp] theorem Response.empty_len (st : Status) : (Response.empty st).len = 0#3 := rfl
@[simp] theorem reportA_status (p : Params) (m : Memory) : (reportA p m).status = .ok := rfl
@[simp] theorem reportA_id (p : Params) (m : Memory) : (reportA p m).id = p.idA := rfl
@[simp] theorem reportA_len (p : Params) (m : Memory) : (reportA p m).len = 2#3 := rfl
@[simp] theorem reportA_payload (p : Params) (m : Memory) : (reportA p m).payload = layoutA m := rfl
@[simp] theorem reportB_status (p : Params) (m : Memory) : (reportB p m).status = .ok := rfl
@[simp] theorem reportB_id (p : Params) (m : Memory) : (reportB p m).id = p.idB := rfl
@[simp] theorem reportB_len (p : Params) (m : Memory) : (reportB p m).len = 7#3 := rfl
@[simp] theorem reportB_payload (p : Params) (m : Memory) : (reportB p m).payload = layoutB p.dzInnerZero m := rfl

end Sys2Proof.Machine
end

