-- ==== Sys2Proof/Laws/PerInstr.lean ====
section
/-!
SUPPORT. Statements for all instructions, one lemma per constructor.
-/

namespace Sys2Proof.Laws.TableRow

/-- The encoding of an instruction meets the `mask` and `match` of its own row of spec/opcode_table.json, and it carries its
operation code and its data byte in the two fields of 30_encoding.md R45. -/
def Statement (i : Instr) : Prop :=
  encode i &&& tableMask = i.tableMatch ∧ opField (encode i) = i.op ∧ dataField (encode i) = i.data

/-- Masking keeps the operation field and clears the data. -/
theorem masked (op : BitVec 2) (d : Byte) : cmdWord op d &&& tableMask = cmdWord op 0#8 := by
  revert op d; decide

theorem idle (d : Byte) : Statement (.idle d) :=
  ⟨(masked _ d).trans (by show cmdWord 0b00#2 0#8 = 0x000#10; decide), opField_cmdWord _ _, dataField_cmdWord _ _⟩

theorem push (b : Byte) : Statement (.push b) :=
  ⟨(masked _ b).trans (by show cmdWord 0b01#2 0#8 = 0x100#10; decide), opField_cmdWord _ _, dataField_cmdWord _ _⟩

theorem req (reqId : Byte) : Statement (.req reqId) :=
  ⟨(masked _ reqId).trans (by show cmdWord 0b10#2 0#8 = 0x200#10; decide), opField_cmdWord _ _, dataField_cmdWord _ _⟩

theorem reserved (d : Byte) : Statement (.reserved d) :=
  ⟨(masked _ d).trans (by show cmdWord 0b11#2 0#8 = 0x300#10; decide), opField_cmdWord _ _, dataField_cmdWord _ _⟩

end Sys2Proof.Laws.TableRow
end

