-- ==== Sys2Proof/Laws/Step.lean ====
section
/-!
SUPPORT. What one step can do, said once, and how a run is made of steps.
-/

namespace Sys2Proof.Machine

@[simp] theorem exec_idle (d : Byte) (s : State) : exec (.idle d) s = .next (quiet s) := rfl
@[simp] theorem exec_push (b : Byte) (s : State) : exec (.push b) s = .next (pushByte b s) := rfl
@[simp] theorem exec_req (reqId : Byte) (s : State) : exec (.req reqId) s = .next (request Config.params reqId s) := rfl
@[simp] theorem exec_reserved (d : Byte) (s : State) : exec (.reserved d) s = .refused (.reservedCommand d) := rfl

theorem step_rst {s : State} (h : s.presented.rst = true) : step s = .next s.popInput.resetBlock := by
  simp [step, h]

theorem step_cmd {s : State} (h : s.presented.rst = false) : step s = exec (decode s.presented.cmd) s.popInput := by
  simp [step, h]

/-- Everything a step can do: reset, one of the three commands, or the refusal of a reserved word. -/
theorem step_cases (s : State) :
    (s.presented.rst = true ∧ step s = .next s.popInput.resetBlock) ∨
    (∃ d, s.presented.rst = false ∧ decode s.presented.cmd = .idle d ∧ step s = .next (quiet s.popInput)) ∨
    (∃ b, s.presented.rst = false ∧ decode s.presented.cmd = .push b ∧ step s = .next (pushByte b s.popInput)) ∨
    (∃ q, s.presented.rst = false ∧ decode s.presented.cmd = .req q ∧
      step s = .next (request Config.params q s.popInput)) ∨
    (∃ d, s.presented.rst = false ∧ decode s.presented.cmd = .reserved d ∧ step s = .refused (.reservedCommand d)) := by
  cases h : s.presented.rst
  · rw [step_cmd h]
    cases hd : decode s.presented.cmd with
    | idle d => exact .inr (.inl ⟨d, rfl, rfl, rfl⟩)
    | push b => exact .inr (.inr (.inl ⟨b, rfl, rfl, rfl⟩))
    | req q => exact .inr (.inr (.inr (.inl ⟨q, rfl, rfl, rfl⟩)))
    | reserved d => exact .inr (.inr (.inr (.inr ⟨d, rfl, rfl, rfl⟩)))
  · exact .inl ⟨rfl, step_rst h⟩

/-- What a step that answers a next state did. -/
theorem step_next_cases {s t : State} (h : step s = .next t) :
    (s.presented.rst = true ∧ t = s.popInput.resetBlock) ∨
    (∃ d, s.presented.rst = false ∧ decode s.presented.cmd = .idle d ∧ t = quiet s.popInput) ∨
    (∃ b, s.presented.rst = false ∧ decode s.presented.cmd = .push b ∧ t = pushByte b s.popInput) ∨
    (∃ q, s.presented.rst = false ∧ decode s.presented.cmd = .req q ∧ t = request Config.params q s.popInput) := by
  rcases step_cases s with ⟨hr, e⟩ | ⟨d, hr, hd, e⟩ | ⟨b, hr, hd, e⟩ | ⟨q, hr, hd, e⟩ | ⟨d, hr, hd, e⟩ <;>
    rw [e] at h <;> cases h
  · exact .inl ⟨hr, rfl⟩
  · exact .inr (.inl ⟨d, hr, hd, rfl⟩)
  · exact .inr (.inr (.inl ⟨b, hr, hd, rfl⟩))
  · exact .inr (.inr (.inr ⟨q, hr, hd, rfl⟩))

/-- A step takes exactly one sample off the stream. -/
theorem step_inputs {s t : State} (h : step s = .next t) : t.inputs = s.inputs.tail := by
  rcases step_next_cases h with ⟨-, rfl⟩ | ⟨d, -, -, rfl⟩ | ⟨b, -, -, rfl⟩ | ⟨q, -, -, rfl⟩ <;> simp

theorem step_drive_rst (s : State) {x : PortSample} (h : x.rst = true) : step (s.drive x) = .next s.resetBlock :=
  step_rst h

theorem step_drive_cmd (s : State) {x : PortSample} (h : x.rst = false) : step (s.drive x) = exec (decode x.cmd) s :=
  step_cmd h

/-- What a driven step that answers a next state did. -/
theorem step_drive_next_cases {s t : State} {x : PortSample} (h : step (s.drive x) = .next t) :
    (x.rst = true ∧ t = s.resetBlock) ∨
    (∃ d, x.rst = false ∧ decode x.cmd = .idle d ∧ t = quiet s) ∨
    (∃ b, x.rst = false ∧ decode x.cmd = .push b ∧ t = pushByte b s) ∨
    (∃ q, x.rst = false ∧ decode x.cmd = .req q ∧ t = request Config.params q s) :=
  step_next_cases h

@[simp] theorem feed_nil (s : State) : feed s [] = .next s := rfl

theorem feed_cons_next {s t : State} {x : PortSample} (xs : List PortSample) (h : step (s.drive x) = .next t) :
    feed s (x :: xs) = feed t xs := by
  simp [feed, h]

theorem responses_cons_next {s t : State} {x : PortSample} (xs : List PortSample) (h : step (s.drive x) = .next t) :
    responses s (x :: xs) = t.rsp :: responses t xs := by
  simp [responses, h]

/-- A run that ends in a next state began with a step that did. -/
theorem feed_cons_inv {s u : State} {x : PortSample} {xs : List PortSample} (h : feed s (x :: xs) = .next u) :
    ∃ t, step (s.drive x) = .next t ∧ feed t xs = .next u := by
  cases hs : step (s.drive x) with
  | next t => exact ⟨t, rfl, by simpa [feed, hs] using h⟩
  | fault r => simp [feed, hs] at h
  | refused r => simp [feed, hs] at h

/-- Runs compose: commands take effect in stream order (20_memory.md R39). -/
theorem feed_append {s t : State} {xs : List PortSample} (ys : List PortSample) (h : feed s xs = .next t) :
    feed s (xs ++ ys) = feed t ys := by
  induction xs generalizing s with
  | nil => cases h; rfl
  | cons x xs ih =>
    obtain ⟨u, hu, hx⟩ := feed_cons_inv h
    rw [List.cons_append, feed_cons_next _ hu, ih hx]

/-- The responses of a composed run are those of its parts. -/
theorem responses_append {s t : State} {xs : List PortSample} (ys : List PortSample) (h : feed s xs = .next t) :
    responses s (xs ++ ys) = responses s xs ++ responses t ys := by
  induction xs generalizing s with
  | nil => cases h; rfl
  | cons x xs ih =>
    obtain ⟨u, hu, hx⟩ := feed_cons_inv h
    rw [List.cons_append, responses_cons_next _ hu, responses_cons_next _ hu, ih hx, List.cons_append]

/-- One step of a run of any machine behind the host's interface. -/
theorem machine_run_next (M : Host.Core) {s t : M.State} (k : Nat) (h : M.step s = .next t) :
    M.run (k + 1) s = M.run k t := by
  simp [Host.Core.run, h]

theorem machine_run_refused (M : Host.Core) {s : M.State} {r : M.Refusal} (k : Nat) (h : M.step s = .refused r) :
    M.run (k + 1) s = .refused r := by
  simp [Host.Core.run, h]

/-- One step of the host's run of this machine. -/
theorem core_run_next {s t : State} (k : Nat) (h : step s = .next t) :
    Host.Core.run Sys2Proof.core (k + 1) s = Host.Core.run Sys2Proof.core k t :=
  machine_run_next Sys2Proof.core k h

/-- The host's run stops where a step refuses. -/
theorem core_run_refused {s : State} {r : Refusal} (k : Nat) (h : step s = .refused r) :
    Host.Core.run Sys2Proof.core (k + 1) s = .refused r :=
  machine_run_refused Sys2Proof.core k h

section pushed
variable {x : PortSample}

theorem pushedByte_rst (h : x.rst = true) : pushedByte x = none := by simp [pushedByte, h]

theorem pushedByte_push (h : x.rst = false) {b : Byte} (hd : decode x.cmd = .push b) : pushedByte x = some b := by
  simp [pushedByte, h, hd]

theorem pushedByte_idle {d : Byte} (hd : decode x.cmd = .idle d) : pushedByte x = none := by simp [pushedByte, hd]

theorem pushedByte_req {q : Byte} (hd : decode x.cmd = .req q) : pushedByte x = none := by simp [pushedByte, hd]

@[simp] theorem pushedBytes_nil : pushedBytes [] = [] := rfl

theorem pushedBytes_cons_some (xs : List PortSample) {b : Byte} (h : pushedByte x = some b) :
    pushedBytes (x :: xs) = b :: pushedBytes xs := by
  simp [pushedBytes, h]

theorem pushedBytes_cons_none (xs : List PortSample) (h : pushedByte x = none) :
    pushedBytes (x :: xs) = pushedBytes xs := by
  simp [pushedBytes, h]

end pushed

/-- Packaged induction over a run: what every step from a state with `P` keeps holds of the state a run ends in, where
`Q` says which samples the run may hold. -/
theorem feed_induction {P : State → Prop} {Q : PortSample → Prop}
    (hstep : ∀ s x t, P s → Q x → step (s.drive x) = .next t → P t)
    {s t : State} {xs : List PortSample} (hs : P s) (hx : ∀ x ∈ xs, Q x) (h : feed s xs = .next t) : P t := by
  induction xs generalizing s with
  | nil => cases h; exact hs
  | cons x xs ih =>
    simp only [List.mem_cons, forall_eq_or_imp] at hx
    obtain ⟨u, hu, hf⟩ := feed_cons_inv h
    exact ih (hstep s x u hs hx.1 hu) hx.2 hf

end Sys2Proof.Machine
end

