-- ==== Sys2Proof/Tests/Slice0.lean ====
section
/-!
SUPPORT. Tests of one step against the vectors of spec/95_test_vectors.md, words written out from spec/30_encoding.md R45, and a
witness for the hypotheses of each statement.
-/

namespace Sys2Proof.Tests

open Sys2Proof.Machine

/-! ### Helpers -/

/-- The parameters the spec's vectors instantiate: `ID_A = 0x01`, `ID_B = 0x02` (95_test_vectors.md). -/
def vectorParams (dz : Bool) : Params := { ids := { idA := 0x01#8, idB := 0x02#8, legal := by decide }, dzInnerZero := dz }

/-- A state with the given registers, nothing driven. -/
def mk (cnt : Fin 11) (lastId : Byte) (led : Bool) (frame : Memory) : State :=
  { frame := frame, cnt := cnt, lastId := lastId, led := led, inputs := [], rsp := Response.empty .none }

/-- The frame of section 2.3 of 95_test_vectors.md. -/
def frameS : Memory :=
  [(0, 0x01#8), (1, 0x02#8), (2, 0x03#8), (3, 0x04#8), (4, 0x05#8), (5, 0x9C#8), (6, 0x9C#8), (7, 0x64#8), (8, 0x64#8)]

/-- The frame with distinct axes of section 2.3. -/
def frameAxes : Memory :=
  [(0, 0xA0#8), (1, 0xA1#8), (2, 0xA2#8), (3, 0xA3#8), (4, 0xA4#8), (5, 0x80#8), (6, 0x8C#8), (7, 0x65#8), (8, 0xB8#8),
   (9, 0x77#8)]

/-- The next state, where there is one. -/
def nextOf : Host.Outcome State Fault Refusal → Option State
  | .next t => some t
  | .fault _ => none
  | .refused _ => none

/-- A sample of PUSH b. -/
def pushS (b : Byte) : PortSample := cmdSample (.push b)

/-- A sample with `rst = 1` and a reserved word. -/
def rstS : PortSample := { rst := true, cmd := 0x300#10 }

/-! ### WellFormed: each check refuses an ill-formed term -/

theorem test_wf_refuses_reserved : (Instr.reserved 0x00#8).wf = false ∧ (Instr.req 0xFF#8).wf = true := by decide

theorem test_ids_refuse_zero_A : legalIds 0x00#8 0x02#8 = false := by decide

theorem test_ids_refuse_zero_B : legalIds 0x01#8 0x00#8 = false := by decide

theorem test_ids_refuse_equal : legalIds 0x05#8 0x05#8 = false ∧ legalIds 0x01#8 0x02#8 = true := by decide

theorem test_memory_wf_refuses : ¬ Memory.wf [(1, 0x01#8), (0, 0x02#8)] ∧ ¬ Memory.wf [(10, 0x01#8)] ∧
    ¬ Memory.wf [(3, 0x00#8)] ∧ Memory.wf frameAxes := by decide

/-! ### Decoding: words from the table of 30_encoding.md R45 -/

theorem test_decode_idle : decode 0b0000000000#10 = .idle 0x00#8 ∧ decode 0b0011111111#10 = .idle 0xFF#8 := by decide

theorem test_decode_push : decode 0b0101011010#10 = .push 0x5A#8 ∧ decode 0b0110101010#10 = .push 0xAA#8 := by decide

theorem test_decode_req : decode 0b1000000000#10 = .req 0x00#8 ∧ decode 0b1000000101#10 = .req 0x05#8 := by decide

theorem test_decode_reserved : decode 0b1100000000#10 = .reserved 0x00#8 ∧ decode 0b1111111111#10 = .reserved 0xFF#8 := by
  decide

theorem test_decodeTableWord : decodeTableWord 16 0x000 = some (.idle 0x00#8) ∧
    decodeTableWord 16 0x300 = some (.reserved 0x00#8) ∧ decodeTableWord 16 0x400 = none := by decide

theorem test_encode : encode (.push 0x5A#8) = 0x15A#10 ∧ encode (.req 0x02#8) = 0x202#10 := by decide

/-! ### One step each, from sections 2.1 to 2.6 of 95_test_vectors.md -/

/-- I1. -/
theorem test_idle : nextOf (exec (.idle 0x00#8) (mk 7 0x02#8 true frameS)) = some (mk 7 0x02#8 true frameS) := by decide

/-- P-5: the counter wraps and the old `Frame[0]` is lost. -/
theorem test_push_wraps : nextOf (exec (.push 0xAA#8) (mk 10 0x02#8 false [(0, 0x11#8), (9, 0x99#8)])) =
    some (mk 1 0x02#8 true [(0, 0xAA#8), (9, 0x99#8)]) := by decide

/-- P-4: the padding byte completes the frame. P-2: 0x00 is stored like any other value. -/
theorem test_push_last_and_zero :
    nextOf (exec (.push 0xEE#8) (mk 9 0x00#8 true [])) = some (mk 10 0x00#8 true [(9, 0xEE#8)]) ∧
    nextOf (exec (.push 0x00#8) (mk 4 0x00#8 true [(4, 0x77#8)])) = some (mk 5 0x00#8 true []) := by decide

/-- S1 and S2 on a block with the vectors' parameters. -/
theorem test_req_alternates :
    request (vectorParams false) 0#8 (mk 10 0x00#8 true frameS) =
      { mk 10 0x01#8 false frameS with rsp := ⟨.ok, 0x01#8, 2#3, #v[1#8, 2#8, 0#8, 0#8, 0#8, 0#8, 0#8]⟩ } ∧
    request (vectorParams false) 0#8 (mk 10 0x01#8 true frameS) =
      { mk 10 0x02#8 false frameS with rsp := ⟨.ok, 0x02#8, 7#3, #v[3#8, 4#8, 5#8, 0#8, 0#8, 0#8, 0#8]⟩ } := by decide

/-- S7 and S10. -/
theorem test_req_fails :
    request (vectorParams false) 5#8 (mk 10 0x02#8 true frameS) =
      { mk 10 0x05#8 true frameS with rsp := Response.empty .unrecognized } ∧
    request (vectorParams false) 5#8 (mk 9 0x01#8 true frameS) =
      { mk 9 0x01#8 true frameS with rsp := Response.empty .notReady } := by decide

/-- S11, through exec: no parameter is read before the gate. -/
theorem test_exec_req_not_ready : nextOf (exec (.req 1#8) (mk 0 0x00#8 false [])) =
    some { mk 0 0x00#8 false [] with rsp := Response.empty .notReady } := by decide

/-- Layout B with distinct axes, under both readings of the inner band. -/
theorem test_layoutB_axes :
    layoutB false frameAxes = #v[0xA2#8, 0xA3#8, 0xA4#8, 0x00#8, 0x0C#8, 0xE5#8, 0x1C#8] ∧
    layoutB true frameAxes = #v[0xA2#8, 0xA3#8, 0xA4#8, 0x00#8, 0x00#8, 0x00#8, 0x1C#8] := by decide

/-- W5 and the corner vectors of section 2.4. -/
theorem test_norm : norm false 128#8 = 0 ∧ norm false 156#8 = 0 ∧ norm false 157#8 = 1 ∧ norm false 100#8 = 0 ∧
    norm false 99#8 = -1 ∧ norm false 255#8 = 99 ∧ norm false 0#8 = -100 ∧ norm false 101#8 = -27 ∧ norm false 155#8 = 27 ∧
    norm true 101#8 = 0 ∧ norm true 155#8 = 0 := by decide

theorem test_norm_bytes : axisByte false 0x63#8 = 0xFF#8 ∧ axisByte false 0x01#8 = 0x9D#8 := by decide

/-- X4: reset overrides a reserved word. -/
theorem test_reset_overrides : nextOf (step ((mk 4 0x05#8 true frameS).drive rstS)) = some (mk 0 0x00#8 false []) := by decide

/-- Z1 and Z2. -/
theorem test_reserved_refused :
    step ((mk 4 0x05#8 true []).drive { rst := false, cmd := 0x300#10 }) = .refused (.reservedCommand 0x00#8) ∧
    step ((mk 4 0x05#8 true []).drive { rst := false, cmd := 0x3FF#10 }) = .refused (.reservedCommand 0xFF#8) := ⟨rfl, rfl⟩

/-- 10_state.md R18: the counter's bits. -/
theorem test_cntBits : (mk 10 0#8 false []).cntBits = 0b1010#4 ∧ (mk 0 0#8 true []).ledPort = 0b1#1 := by decide

/-- 30_encoding.md R44: byte 0 of the payload is the low byte of the port. -/
theorem test_payloadPort : (Response.payloadPort ⟨.ok, 1#8, 2#3, #v[0x01#8, 0x02#8, 0#8, 0#8, 0#8, 0#8, 0x7F#8]⟩) =
    0x7F000000000201#56 := by decide

/-! ### The assembler, from 30_encoding.md R53 to R55 -/

theorem test_asm_commands : assembleLine (vectorParams false) "PUSH 0x5A ; a byte".toList = .ok [⟨false, 0x15A#10⟩] ∧
    assembleLine (vectorParams false) "REQ.B".toList = .ok [⟨false, 0x202#10⟩] ∧
    assembleLine (vectorParams false) "RESET".toList = .ok [⟨true, 0x000#10⟩] ∧
    assembleLine (vectorParams false) "WAIT 2".toList = .ok [⟨false, 0x000#10⟩, ⟨false, 0x000#10⟩] := ⟨rfl, rfl, rfl, rfl⟩

theorem test_asm_frame :
    (assembleLine (vectorParams false) "FRAME 0x11,0x22,0x33,0x44,0x55,0xFF,0x00,0x9D,0x63,153".toList).toOption =
      some [⟨false, 0x111#10⟩, ⟨false, 0x122#10⟩, ⟨false, 0x133#10⟩, ⟨false, 0x144#10⟩, ⟨false, 0x155#10⟩, ⟨false, 0x1FF#10⟩,
        ⟨false, 0x100#10⟩, ⟨false, 0x19D#10⟩, ⟨false, 0x163#10⟩, ⟨false, 0x199#10⟩] := rfl

theorem test_asm_rejects : assembleLine (vectorParams false) "PUSH 256".toList = .error .operandOutOfRange ∧
    assembleLine (vectorParams false) "FRAME 1,2".toList = .error .frameOperandCount ∧
    assembleLine (vectorParams false) "JUMP 1".toList = .error .unknownMnemonic ∧
    assembleLine (vectorParams false) "REQ".toList = .error .wrongOperandCount ∧
    assembleLine (vectorParams false) "PUSH 0x".toList = .error .malformedNumber := ⟨rfl, rfl, rfl, rfl, rfl⟩

/-- R53 and R55 bound the operand of `WAIT` too, and R54 lets it be 0; R53 has no sign. -/
theorem test_asm_wait_range : assembleLine (vectorParams false) "WAIT 256".toList = .error .operandOutOfRange ∧
    parseLine "WAIT 255".toList = .ok (some (.wait 255)) ∧
    assembleLine (vectorParams false) "WAIT 0".toList = .ok [] ∧
    assembleLine (vectorParams false) "WAIT -1".toList = .error .malformedNumber := ⟨rfl, rfl, rfl, rfl⟩

/-! ### Witnesses: each statement's hypotheses are met together -/

/-- One ready state and one in the middle of a frame, used below. -/
def readyS : State := mk 10 0x00#8 true frameS
def midS : State := mk 4 0x00#8 true [(0, 0x07#8)]

theorem witness_StepRunsDecodedCommand :
    (midS.drive (pushS 1#8)).inputs = [pushS 1#8] ∧ (pushS 1#8).rst = false ∧ midS.inputs = [] := by decide

theorem witness_ResetStepRestoresEveryRegister : (readyS.drive rstS).inputs = { rst := true, cmd := 0x300#10 } :: [] := by
  decide

theorem witness_FetchWordRunsInTheComingStep : decodeTableWord 16 0x1AA = some (.push 0xAA#8) ∧
    decodeTableWord 16 0x3FF = some (.reserved 0xFF#8) := by decide

theorem witness_StepRefinesHardwareBlock : (midS.drive (pushS 0xFF#8)).presented.legal = true ∧
    (midS.drive rstS).presented.legal = true ∧ (midS.drive ⟨false, 0x300#10⟩).presented.legal = false := by decide

theorem witness_ResponseIsFreshEveryStep : ∃ t, step (midS.drive (pushS 1#8)) = .next t ∧
    ∀ q, decode (midS.drive (pushS 1#8)).presented.cmd ≠ .req q :=
  ⟨_, rfl, by intro q h; cases h⟩

theorem witness_ReservedWordsAreRefused : (midS.drive ⟨false, 0x3FF#10⟩).presented.rst = false ∧
    opField (midS.drive ⟨false, 0x300#10⟩).presented.cmd = 0b11#2 ∧
    opField (midS.drive ⟨false, 0x3FF#10⟩).presented.cmd = 0b11#2 := by decide

theorem witness_IdleStepsChangeNoResult : LegalStream [pushS 1#8, rstS] ∧
    (∀ z ∈ [idleSample, ⟨false, 0x0FF#10⟩], z.rst = false ∧ opField z.cmd = 0b00#2) ∧
    ∃ t, feed midS ([pushS 1#8, rstS] ++ [pushS 2#8]) = .next t :=
  ⟨by unfold LegalStream; decide, by decide, _, rfl⟩

theorem witness_PushStoresByteAndAdvances : (0x1AA#10 &&& 0x300#10 = 0x100#10) ∧ midS.cnt ≠ 0 ∧
    (midS.drive (pushS 1#8)).presented.rst = false ∧ (∃ t, step (midS.drive (pushS 1#8)) = .next t) ∧
    (mk 9 0#8 true []).cnt.val = 9 ∧ readyS.cnt.val = 10 :=
  ⟨by decide, by decide, rfl, ⟨_, rfl⟩, rfl, rfl⟩

theorem witness_CounterZeroOnlyBeforeFirstPush : NoReset [idleSample] ∧ NoPush [idleSample] ∧
    (∃ t, feed State.reset [idleSample] = .next t) ∧ midS.cnt ≠ 0 ∧ (∃ t, feed midS [idleSample] = .next t) :=
  ⟨by unfold NoReset; decide, by unfold NoPush; decide, ⟨_, rfl⟩, by decide, ⟨_, rfl⟩⟩

theorem witness_OnlyPushWritesTheFrameStore :
    ∃ t, step (midS.drive (pushS 9#8)) = .next t ∧ (midS.drive (pushS 9#8)).presented.rst = false ∧
      t.frame.read 4 ≠ (midS.drive (pushS 9#8)).frame.read 4 ∧
      (∃ u, step (midS.drive rstS) = .next u) ∧ (midS.drive rstS).presented.rst = true ∧ (mk 9 0#8 true []).cnt.val = 9 :=
  ⟨_, rfl, rfl, by decide, ⟨_, rfl⟩, rfl, rfl⟩

theorem witness_OnlyPushAndResetWriteTheCounter :
    (∃ t, step (midS.drive (cmdSample (.req 0#8))) = .next t) ∧
    (∀ b, decode (midS.drive (cmdSample (.req 0#8))).presented.cmd ≠ .push b) ∧
    (∃ t, step (readyS.drive (pushS 1#8)) = .next t) ∧ decode (readyS.drive (pushS 1#8)).presented.cmd = .push 1#8 ∧
    (∃ t, step (readyS.drive rstS) = .next t) ∧ (readyS.drive rstS).presented.rst = true :=
  ⟨⟨_, rfl⟩, (by intro b h; cases h), ⟨_, rfl⟩, rfl, ⟨_, rfl⟩, rfl⟩

/-- One byte, and the ten that complete a frame, from both frame-aligned counts. -/
def tenPushes : List PortSample := List.replicate 10 (pushS 0x5A#8)

theorem witness_ArrivalOrderIsIndexOrder : State.reset.cnt = 0 ∧ readyS.cnt = 10 ∧ NoReset tenPushes ∧
    (pushedBytes tenPushes).length = 10 ∧ (pushedBytes tenPushes)[9]? = some 0x5A#8 ∧
    (∃ t, feed State.reset tenPushes = .next t) ∧ (∃ t, feed readyS tenPushes = .next t) :=
  ⟨rfl, rfl, by unfold NoReset; decide, by decide, by decide, ⟨_, rfl⟩, ⟨_, rfl⟩⟩

theorem witness_FrameBoundaryMovesOnlyByPushes : NoReset tenPushes ∧ (∃ t, feed midS tenPushes = .next t) ∧
    (∃ t, feed readyS tenPushes = .next t) ∧ (pushIndex midS.cnt).val = ((pushIndex readyS.cnt).val + 4) % 10 :=
  ⟨by unfold NoReset; decide, ⟨_, rfl⟩, ⟨_, rfl⟩, by decide⟩

theorem witness_NextByteOpensTheRefillWindow : readyS.cnt = 10 ∧ NoReset (tenPushes.take 9) ∧
    (pushedBytes (tenPushes.take 8)).length < 9 ∧ (pushedBytes (tenPushes.take 9)).length = 9 ∧
    (∃ u, feed (pushByte 1#8 readyS) (tenPushes.take 8) = .next u) ∧
    (∃ u, feed (pushByte 1#8 readyS) (tenPushes.take 9) = .next u) :=
  ⟨rfl, by unfold NoReset; decide, by decide, by decide, ⟨_, rfl⟩, ⟨_, rfl⟩⟩

theorem witness_RequestNotReadyChangesNothing : (mk 9 0x01#8 true []).cnt ≠ 10 ∧ State.reset.cnt ≠ 10 := by decide

theorem witness_LastIdentifierStateMachine : readyS.cnt = 10 ∧
    (∃ t, step (readyS.drive (cmdSample (.req 7#8))) = .next t ∧ t.lastId ≠ readyS.lastId) ∧
    (∃ t, step (midS.drive (cmdSample (.req 7#8))) = .next t ∧ t.lastId = 0#8) := by
  refine ⟨rfl, ⟨_, rfl, ?_⟩, ⟨_, rfl, rfl⟩⟩
  rw [State.drive_popInput, request_lastId _ _ _ rfl]
  decide

theorem witness_RequestReportsSimplePad :
    resolveId Config.params Config.params.idA readyS.lastId = Config.params.idA ∧ readyS.cnt = 10 :=
  ⟨resolveId_explicit _ (Params.legal _).1 _, rfl⟩

theorem witness_RequestReportsDualStick :
    resolveId Config.params Config.params.idB readyS.lastId = Config.params.idB ∧ readyS.cnt = 10 ∧
    resolveId (vectorParams true) 0#8 0x01#8 = (vectorParams true).idB :=
  ⟨resolveId_explicit _ (Params.legal _).2.1 _, rfl, by decide⟩

/-- Whatever the two identifiers are, some third non-zero one is unrecognized. -/
theorem third_id (a b : Byte) : ∃ q : Byte, q ≠ 0#8 ∧ q ≠ a ∧ q ≠ b := by
  by_cases h1 : 1#8 ≠ a ∧ 1#8 ≠ b
  · exact ⟨1#8, by decide, h1⟩
  · by_cases h2 : 2#8 ≠ a ∧ 2#8 ≠ b
    · exact ⟨2#8, by decide, h2⟩
    · refine ⟨3#8, by decide, ?_⟩
      constructor <;> (intro h; subst h; revert h1 h2; simp; try (intro h; subst h; decide))

theorem witness_RequestUnrecognizedIdentifier : ∃ q, readyS.cnt = 10 ∧
    resolveId Config.params q readyS.lastId ≠ Config.params.idA ∧
    resolveId Config.params q readyS.lastId ≠ Config.params.idB := by
  obtain ⟨q, h0, hA, hB⟩ := third_id Config.params.idA Config.params.idB
  exact ⟨q, rfl, by rw [resolveId_explicit _ h0]; exact hA, by rw [resolveId_explicit _ h0]; exact hB⟩

theorem witness_RequestDoesNotConsumeTheFrame : readyS.cnt = 10 ∧ NoReset [idleSample, cmdSample (.req 0#8)] ∧
    NoPush [idleSample, cmdSample (.req 0#8)] ∧ ∃ t, feed readyS [idleSample, cmdSample (.req 0#8)] = .next t :=
  ⟨rfl, by unfold NoReset; decide, by unfold NoPush; decide, _, rfl⟩

/-- The first automatic REQ on a ready frame reports layout A, whatever the identifiers are. -/
theorem step_readyS_auto : step (readyS.drive (cmdSample (.req 0#8))) =
    .next (((readyS.setLastId Config.params.idA).setLed false).respond (reportA Config.params readyS.frame)) := by
  have hs : step (readyS.drive (cmdSample (.req 0#8))) = .next (request Config.params 0#8 readyS) := rfl
  rw [hs, request_A _ _ _ rfl (resolveId_zero_other _ (Params.legal Config.params).1.symm)]

theorem witness_AutomaticRequestsAlternate : NoReset [cmdSample (.req 0#8), pushS 1#8] ∧
    (∀ x ∈ [cmdSample (.req 0#8), pushS 1#8], ∀ q, decode x.cmd = .req q → q = 0#8) ∧
    (emittedIds State.reset [cmdSample (.req 0#8), pushS 1#8]).length = 0 ∧
    (emittedIds readyS [cmdSample (.req 0#8)]).head? = some Config.params.idA := by
  refine ⟨by unfold NoReset; decide, ?_, by decide, ?_⟩
  · intro x hx q hq
    simp only [List.mem_cons, List.not_mem_nil, or_false] at hx
    rcases hx with rfl | rfl <;> cases hq
    rfl
  · rw [emittedIds, responses_cons_next _ step_readyS_auto]
    simp [responses]

theorem witness_ExplicitIdentifierSteersTheNext : readyS.cnt = 10 ∧ NoReset [idleSample] ∧
    (∀ r ∈ responses (request Config.params 7#8 readyS) [idleSample], r.status = .none ∨ r.status = .notReady) ∧
    ∃ u, feed (request Config.params 7#8 readyS) [idleSample] = .next u ∧ u.cnt = 10 := by
  have hs : step ((request Config.params 7#8 readyS).drive idleSample) = .next (quiet (request Config.params 7#8 readyS)) := rfl
  refine ⟨rfl, by unfold NoReset; decide, ?_, _, rfl, by simp [readyS, mk]⟩
  rw [responses_cons_next _ hs]
  simp [responses]

/-- The invariant holds of a state in the middle of a frame and of a ready one. -/
theorem inv_of_registers {s : State} (hw : s.frame.wf) (h0 : s.cnt ≠ 0) (hl : s.led = true)
    (hr : s.rsp = Response.empty .none) : s.Inv := by
  refine ⟨hw, fun h => absurd h h0, (fun h => by rw [hl] at h; cases h), (by rw [hr]; exact ⟨fun _ => rfl, fun h => by cases h⟩),
    ?_, ?_, ?_⟩ <;> rw [hr] <;> intro h <;> cases h

theorem witness_StalledSender : midS.Inv ∧ readyS.Inv ∧ midS.cnt ≠ 10 ∧ midS.cnt ≠ 0 ∧ readyS.cnt = 10 ∧
    NoReset [idleSample] ∧ NoPush [idleSample] ∧ (∃ t, feed midS [idleSample] = .next t) ∧
    ∃ t, feed readyS [idleSample] = .next t :=
  ⟨inv_of_registers (by decide) (by decide) rfl rfl, inv_of_registers (by decide) (by decide) rfl rfl, by decide, by decide, rfl,
    by unfold NoReset; decide, by unfold NoPush; decide, ⟨_, rfl⟩, ⟨_, rfl⟩⟩

/-- The bands' boundary values: 156, 100, 101, 155. -/
theorem witness_NormFollowsItsSteps : ((156#8 : Byte).toNat : Int) - 128 ≥ 28 ∧ ((100#8 : Byte).toNat : Int) - 128 ≤ -28 ∧
    (-28 < ((101#8 : Byte).toNat : Int) - 128) ∧ ((155#8 : Byte).toNat : Int) - 128 < 28 := by decide

theorem witness_NormRange : 156 ≤ (156#8 : Byte).toNat ∧ (100#8 : Byte).toNat ≤ 100 ∧ 101 ≤ (101#8 : Byte).toNat ∧
    (155#8 : Byte).toNat ≤ 155 := by decide

theorem witness_NormPreimages : norm false 100#8 = 0 ∧ norm false 128#8 = 0 ∧ norm false 156#8 = 0 ∧ norm true 157#8 = 1 ∧
    norm true 99#8 = -1 ∧ (100#8 : Byte).toNat ≤ (101#8 : Byte).toNat := by decide

theorem witness_EveryStepKeepsTheInvariant : midS.Inv ∧ ∃ t, step midS = .next t :=
  ⟨inv_of_registers (by decide) (by decide) rfl rfl, _, rfl⟩

theorem witness_ReachableStatesMeetTheInvariant :
    ∃ s t, Reachable s ∧ step s = .next t ∧ Reachable t ∧ t.cnt = 1 :=
  ⟨_, _, .reset [pushS 1#8], rfl, .step (.reset [pushS 1#8]) rfl, rfl⟩

theorem witness_NoErrorStopsTheBlock : LegalStream [cmdSample (.req 0xFF#8), rstS] ∧ (cmdSample (.req 5#8)).legal = true ∧
    idleSample.legal = true ∧ ∃ t, step (State.reset.drive (cmdSample (.req 5#8))) = .next t :=
  ⟨by unfold LegalStream; decide, by decide, by decide, _, rfl⟩

theorem witness_UnfilledBytesAreNeverObserved :
    AgreeOnFilled (mk 1 0#8 true [(0, 0x07#8)]) (mk 1 0#8 true [(0, 0x07#8), (1, 0x55#8), (9, 0x66#8)]) :=
  ⟨rfl, rfl, rfl, by decide⟩

theorem witness_PhaseFollowsTheCounter :
    (∃ t, step ((mk 9 0#8 true []).drive (pushS 1#8)) = .next t ∧ t.phase = .frameReady) ∧
    (mk 9 0#8 true []).phase = .awaitingFrame ∧
    (∃ t, step (readyS.drive (pushS 1#8)) = .next t ∧ t.phase = .awaitingFrame) ∧ readyS.phase = .frameReady :=
  ⟨⟨_, rfl, by decide⟩, by decide, ⟨_, rfl, by decide⟩, by decide⟩

theorem witness_IndicatorIsOnlyObservational :
    (∃ t, step ((mk 0 0#8 false []).drive (pushS 1#8)) = .next t ∧ t.led = true) ∧
    (∃ t, step (readyS.drive rstS) = .next t ∧ t.led = false) ∧ readyS.led = true ∧
    ((readyS.drive (pushS 1#8)).presented.rst = false ∧ decode (readyS.drive (pushS 1#8)).presented.cmd = .push 1#8 ∧
      ∃ t, step (readyS.drive (pushS 1#8)) = .next t) ∧
    ∃ t, step (readyS.drive (cmdSample (.req 0#8))) = .next t ∧ t.led = false ∧ t.rsp.status = .ok := by
  refine ⟨⟨_, rfl, rfl⟩, ⟨_, rfl, rfl⟩, rfl, ⟨rfl, rfl, _, rfl⟩, _, step_readyS_auto, ?_, ?_⟩ <;> simp [reportA]

theorem witness_OpcodeRowsPartitionTheWords : opField 0x1AA#10 = opField 0x100#10 := by decide

theorem witness_NoSyntaxSpellsAReservedWord :
    assemble (vectorParams false) ["PUSH 255".toList, "".toList, "IDLE".toList] = .ok [⟨false, 0x1FF#10⟩, ⟨false, 0x000#10⟩] := rfl

/-- One line for each clause: the boundary operand 256, a FRAME of nine and of ten, an operand too many, a text that ends in a
rejected line. -/
theorem witness_AssemblerRejections : parseNumber "256".toList = some 256 ∧ ([] : List (List Char)).length ≠ 10 ∧
    parseCommand "FRAME".toList (List.replicate 10 ['7']) = .ok (.frame (List.replicate 10 7#8)) ∧
    "JUMP".toList ∉ ["IDLE".toList, "PUSH".toList, "REQ".toList, "REQ.AUTO".toList, "REQ.A".toList, "REQ.B".toList,
      "FRAME".toList, "WAIT".toList, "RESET".toList] ∧
    (lineMnemonic "WAIT 256".toList = "WAIT".toList ∧ lineOperands "WAIT 256".toList = ["256".toList]) ∧
    (lineMnemonic "FRAME 1,2,3,4,5,6,7,8,9".toList = "FRAME".toList ∧
      (lineOperands "FRAME 1,2,3,4,5,6,7,8,9".toList).length = 9) ∧
    (lineBody "JUMP 1".toList ≠ [] ∧ lineMnemonic "JUMP 1".toList = "JUMP".toList) ∧
    (lineMnemonic "IDLE 1".toList = "IDLE".toList ∧ lineOperands "IDLE 1".toList ≠ []) ∧
    (lineMnemonic "PUSH 1, 2".toList = "PUSH".toList ∧ (lineOperands "PUSH 1, 2".toList).length = 2) ∧
    assemble (vectorParams false) ["IDLE".toList] = .ok [⟨false, 0x000#10⟩] ∧
    assembleLine (vectorParams false) "REQ 256".toList = .error .operandOutOfRange := by
  refine ⟨rfl, by decide, rfl, by decide, ⟨rfl, rfl⟩, ⟨rfl, rfl⟩, ⟨by decide, rfl⟩, ⟨rfl, by decide⟩, ⟨rfl, rfl⟩, rfl, rfl⟩

/-- A FRAME line whose tenth operand is out of range: the clause on the operands of any line. -/
theorem witness_AssemblerRejections_operand : lineBody "FRAME 0,0,0,0,0,0,0,0,0,256".toList ≠ [] ∧
    "256".toList ∈ lineOperands "FRAME 0,0,0,0,0,0,0,0,0,256".toList ∧
    ∀ n, parseNumber "256".toList = some n → 256 ≤ n := by
  refine ⟨by decide, by decide, fun n h => ?_⟩
  rw [show parseNumber "256".toList = some 256 from rfl] at h
  cases h
  decide

theorem witness_AssemblerReadsALine : lineBody " ; a comment".toList = [] ∧
    (∀ c ∈ "REQ.A".toList, c ≠ ' ' ∧ c ≠ '\t' ∧ c ≠ ';') ∧ ';' ∉ " 1, 2 ".toList ∧
    (∀ l ∈ ["0".toList, "0xFF".toList], l ≠ [] ∧ ∀ c ∈ l, c ≠ ' ' ∧ c ≠ '\t' ∧ c ≠ ',') ∧
    "0123456789ABCDEF".toList[0]? = some '0' ∧ "0123456789ABCDEF".toList[15]? = some 'F' :=
  ⟨rfl, by simp, by simp, by simp, rfl, rfl⟩

theorem witness_AssemblerAcceptsTheSyntax :
    (lineOperands " RESET ; at once".toList = [] ∧ lineMnemonic " RESET ; at once".toList = "RESET".toList) ∧
    (lineOperands "WAIT 255".toList = ["255".toList] ∧ lineMnemonic "WAIT 255".toList = "WAIT".toList ∧
      parseNumber "255".toList = some 255) ∧
    (lineOperands "PUSH 0x00".toList = ["0x00".toList] ∧ lineMnemonic "PUSH 0x00".toList = "PUSH".toList ∧
      parseNumber "0x00".toList = some 0) ∧
    lineMnemonic "FRAME 0,1,2,3,4,5,6,7,8,255".toList = "FRAME".toList ∧
    (lineOperands "FRAME 0,1,2,3,4,5,6,7,8,255".toList).map parseNumber = [0, 1, 2, 3, 4, 5, 6, 7, 8, 255].map some :=
  ⟨⟨rfl, rfl⟩, ⟨rfl, rfl, rfl⟩, ⟨rfl, rfl, rfl⟩, rfl, rfl⟩

end Sys2Proof.Tests
end

section
/-!
The step of the model against the step of conforming hardware (spec/30_encoding.md R46): the two differ on the reserved
class alone.
-/

namespace Sys2Proof.Machine

theorem blockStep_rst (p : Params) {s : State} (h : s.presented.rst = true) : blockStep p s = s.popInput.resetBlock := by
  simp [blockStep, h]

theorem blockStep_cmd (p : Params) {s : State} (h : s.presented.rst = false) :
    blockStep p s = blockExec p (decode s.presented.cmd) s.popInput := by
  simp [blockStep, h]

/-- On every command but the reserved class, the model's arm is the hardware's. -/
theorem exec_of_wf {i : Instr} (h : i.wf = true) (s : State) : exec i s = .next (blockExec Config.params i s) := by
  cases i with
  | idle d => rfl
  | push b => rfl
  | req q => rfl
  | reserved d => cases h

theorem wf_eq_false_iff (i : Instr) : i.wf = false ↔ ∃ d, i = .reserved d := by
  cases i <;> simp [Instr.wf]

/-- A word that decodes to a reserved command carries its data byte. -/
theorem dataField_of_decode_reserved {w : CmdWord} {d : Byte} (h : decode w = .reserved d) : dataField w = d := by
  rcases decode_cases w with ⟨-, e⟩ | ⟨-, e⟩ | ⟨-, e⟩ | ⟨-, e⟩ <;> rw [e] at h <;> cases h
  rfl

theorem legal_of_rst {x : PortSample} (h : x.rst = true) : x.legal = true := by simp [PortSample.legal, h]

theorem legal_of_cmd {x : PortSample} (h : x.rst = false) : x.legal = (decode x.cmd).wf := by simp [PortSample.legal, h]

/-- The samples an integrator must not drive are the reserved words outside reset. -/
theorem legal_eq_false_iff (x : PortSample) :
    x.legal = false ↔ x.rst = false ∧ decode x.cmd = .reserved (dataField x.cmd) := by
  cases h : x.rst with
  | true => simp [legal_of_rst h]
  | false =>
    rw [legal_of_cmd h, wf_eq_false_iff]
    constructor
    · rintro ⟨d, hd⟩
      exact ⟨rfl, by rw [hd, dataField_of_decode_reserved hd]⟩
    · rintro ⟨-, hd⟩
      exact ⟨_, hd⟩

theorem step_of_legal {s : State} (h : s.presented.legal = true) : step s = .next (blockStep Config.params s) := by
  cases hr : s.presented.rst with
  | true => rw [step_rst hr, blockStep_rst _ hr]
  | false => rw [step_cmd hr, blockStep_cmd _ hr, exec_of_wf (by rwa [← legal_of_cmd hr])]

theorem step_of_not_legal {s : State} (h : s.presented.legal = false) :
    step s = .refused (.reservedCommand (dataField s.presented.cmd)) := by
  obtain ⟨hr, hd⟩ := (legal_eq_false_iff _).mp h
  rw [step_cmd hr, hd, exec_reserved]

/-- Settles O5: a reset is the same on both sides, a command outside the reserved class runs the hardware's operation, and
a reserved word reaches the refusing arm with its own data byte. -/
theorem stepRefinesHardwareBlock : Obligations.StepRefinesHardwareBlock :=
  fun _ => ⟨step_of_legal, step_of_not_legal⟩

end Sys2Proof.Machine
end

section
/-!
Every operation keeps the invariant (spec/10_state.md R22, R25, spec/30_encoding.md R50, spec/41_synthesis.md R62), so
every step does, and every state reached from reset meets it.
-/

namespace Sys2Proof.Machine

/-- A resolved identifier is never "none supplied": the identifiers of 00_scope.md R7 are not zero. -/
theorem resolveId_ne_zero (p : Params) (q last : Byte) : resolveId p q last ≠ 0#8 := by
  obtain ⟨hA, hB, -⟩ := Params.legal p
  rcases resolveId_cases p q last with ⟨-, -, e⟩ | ⟨-, -, e⟩ | ⟨hq, e⟩ <;> rw [e]
  · exact hB
  · exact hA
  · exact hq

theorem Response.wf_empty {st : Status} (h : st ≠ .ok) : (Response.empty st).wf :=
  ⟨fun _ => rfl, fun hok => absurd hok h⟩

theorem reportA_wf (m : Memory) : (reportA Config.params m).wf := by
  refine ⟨fun h => absurd rfl h, fun _ => .inl ⟨rfl, rfl, fun j hj => ?_⟩⟩
  have hm : (reportA Config.params m).payload[j] = (layoutA m)[j] := rfl
  rw [hm, layoutA_getElem, if_neg (by omega), if_neg (by omega)]

theorem reportB_wf (m : Memory) : (reportB Config.params m).wf :=
  ⟨fun h => absurd rfl h, fun _ => .inr ⟨rfl, rfl⟩⟩

/-- In a step that responds NONE, only the clauses on the registers are left of the invariant. -/
theorem inv_of_rsp_none {s : State} (hw : s.frame.wf)
    (h0 : s.cnt = 0 → s.frame = [] ∧ s.lastId = Config.idNeutral ∧ s.led = false)
    (hl : s.led = false → s.cnt = 0 ∨ s.cnt = 10) (hr : s.rsp = Response.empty .none) : s.Inv where
  frame_wf := hw
  cnt_zero := h0
  led_off := hl
  rsp_wf := hr ▸ Response.wf_empty (by decide)
  rsp_ok h := by simp [hr] at h
  rsp_unrecognized h := by simp [hr] at h
  rsp_notReady h := by simp [hr] at h

/-- On a ready frame the clauses on `cnt == 0` and on the indicator hold by themselves. -/
theorem inv_of_ready {s : State} (hw : s.frame.wf) (hc : s.cnt = 10) (hr : s.rsp.wf)
    (hok : s.rsp.status = .ok → s.led = false ∧ s.rsp.id = s.lastId)
    (hun : s.rsp.status = .unrecognized →
      s.lastId ≠ Config.params.idA ∧ s.lastId ≠ Config.params.idB ∧ s.lastId ≠ 0#8)
    (hnr : s.rsp.status ≠ .notReady) : s.Inv where
  frame_wf := hw
  cnt_zero h := by simp [hc] at h
  led_off _ := .inr hc
  rsp_wf := hr
  rsp_ok h := ⟨hc, hok h⟩
  rsp_unrecognized h := ⟨hc, hun h⟩
  rsp_notReady h := absurd h hnr

theorem inv_reset (xs : List PortSample) : ({ State.reset with inputs := xs } : State).Inv :=
  inv_of_rsp_none Memory.wf_nil (fun _ => ⟨rfl, rfl, rfl⟩) (fun _ => .inl rfl) rfl

theorem resetBlock_inv (s : State) : s.resetBlock.Inv := inv_reset s.inputs

/-- The invariant does not speak of the samples still to come. -/
theorem popInput_inv {s : State} (h : s.Inv) : s.popInput.Inv := by
  obtain ⟨hw, h0, hl, hr, hok, hun, hnr⟩ := h
  exact ⟨hw, h0, hl, hr, hok, hun, hnr⟩

theorem quiet_inv {s : State} (h : s.Inv) : (quiet s).Inv :=
  inv_of_rsp_none h.frame_wf h.cnt_zero h.led_off rfl

theorem pushByte_inv (b : Byte) {s : State} (h : s.Inv) : (pushByte b s).Inv :=
  inv_of_rsp_none (Memory.wf_write h.frame_wf _ _) (fun h0 => absurd h0 (cntAfterPush_ne_zero s.cnt))
    (fun hl => by simp at hl) rfl

/-- A request answers NOT_READY off a ready frame; on one it records the identifier it answers for. -/
theorem request_inv (q : Byte) {s : State} (h : s.Inv) : (request Config.params q s).Inv := by
  rcases request_cases Config.params q s with ⟨hc, e⟩ | ⟨hc, -, e⟩ | ⟨hc, -, e⟩ | ⟨hc, hA, hB, e⟩ <;> rw [e]
  · exact {
      frame_wf := h.frame_wf
      cnt_zero := h.cnt_zero
      led_off := h.led_off
      rsp_wf := Response.wf_empty (by decide)
      rsp_ok := fun hs => by simp at hs
      rsp_unrecognized := fun hs => by simp at hs
      rsp_notReady := fun _ => hc }
  · exact inv_of_ready h.frame_wf hc (reportA_wf s.frame) (fun _ => ⟨rfl, rfl⟩) (fun hs => by simp at hs) (by simp)
  · exact inv_of_ready h.frame_wf hc (reportB_wf s.frame) (fun _ => ⟨rfl, rfl⟩) (fun hs => by simp at hs) (by simp)
  · exact inv_of_ready h.frame_wf hc (Response.wf_empty (by decide)) (fun hs => by simp at hs)
      (fun _ => ⟨hA, hB, resolveId_ne_zero _ _ _⟩) (by simp)

theorem step_inv {s t : State} (h : s.Inv) (hs : step s = .next t) : t.Inv := by
  rcases step_next_cases hs with ⟨-, rfl⟩ | ⟨d, -, -, rfl⟩ | ⟨b, -, -, rfl⟩ | ⟨q, -, -, rfl⟩
  · exact resetBlock_inv _
  · exact quiet_inv (popInput_inv h)
  · exact pushByte_inv b (popInput_inv h)
  · exact request_inv q (popInput_inv h)

/-- Settles O37: taking a sample keeps the invariant, and so does each of the four things a step can then do. -/
theorem everyStepKeepsTheInvariant : Obligations.EveryStepKeepsTheInvariant :=
  fun _ _ => step_inv

/-- Settles O38, by induction on the run from reset. -/
theorem reachableStatesMeetTheInvariant : Obligations.ReachableStatesMeetTheInvariant := by
  intro s h
  induction h with
  | reset xs => exact inv_reset xs
  | step _ hs ih => exact step_inv ih hs

end Sys2Proof.Machine
end

section
/-!
What a step does to the frame store and to the counter, said once, and what follows for the two and for the phase
(spec/10_state.md R15, R19, R20, R25).
-/

namespace Sys2Proof.Machine

/-- The pointer of PUSH as 40_ingest.md R57 writes it. -/
theorem pushIndex_val_eq_ite (c : Fin 11) : (pushIndex c).val = if c.val = 10 then 0 else c.val := by
  by_cases h : c.val = 10
  · rw [if_pos h, pushIndex_of_full h]
  · rw [if_neg h, pushIndex_of_lt (by omega)]

theorem cntAfterPush_eq_ten_iff (c : Fin 11) : cntAfterPush c = 10 ↔ c.val = 9 := by
  rw [cnt_val_eq_ten, cntAfterPush_val, pushIndex_val]
  omega

/-- A sample delivers no byte exactly when it is no PUSH of a step without reset. -/
theorem pushedByte_eq_none_iff {x : PortSample} (h : x.rst = false) :
    pushedByte x = none ↔ ∀ b, decode x.cmd ≠ .push b := by
  cases hd : decode x.cmd <;> simp [pushedByte, h, hd]

/-- Reset clears the frame store and the counter, PUSH writes one byte and moves the counter, every other command leaves
both alone. -/
theorem step_store_cases {s t : State} (h : step s = .next t) :
    (s.presented.rst = true ∧ t.frame = [] ∧ t.cnt = 0) ∨
    (∃ b, s.presented.rst = false ∧ decode s.presented.cmd = .push b ∧
      t.frame = s.frame.write (pushIndex s.cnt) b ∧ t.cnt = cntAfterPush s.cnt) ∨
    (s.presented.rst = false ∧ (∀ b, decode s.presented.cmd ≠ .push b) ∧ t.frame = s.frame ∧ t.cnt = s.cnt) := by
  rcases step_next_cases h with ⟨hr, rfl⟩ | ⟨d, hr, hd, rfl⟩ | ⟨b, hr, hd, rfl⟩ | ⟨q, hr, hd, rfl⟩
  · exact .inl ⟨hr, rfl, rfl⟩
  · exact .inr (.inr ⟨hr, by simp [hd], rfl, rfl⟩)
  · exact .inr (.inl ⟨b, hr, hd, rfl, rfl⟩)
  · exact .inr (.inr ⟨hr, by simp [hd], by simp, by simp⟩)

theorem eq_resetBlock_of_step {s t : State} (h : step s = .next t) (hr : s.presented.rst = true) :
    t = s.popInput.resetBlock :=
  Host.Outcome.next.inj (h.symm.trans (step_rst hr))

theorem eq_pushByte_of_step {s t : State} {b : Byte} (h : step s = .next t) (hr : s.presented.rst = false)
    (hd : decode s.presented.cmd = .push b) : t = pushByte b s.popInput :=
  Host.Outcome.next.inj (h.symm.trans (by rw [step_cmd hr, hd, exec_push]))

theorem step_not_push {s t : State} (h : step s = .next t) (hr : s.presented.rst = false)
    (hp : ∀ b, decode s.presented.cmd ≠ .push b) : t.frame = s.frame ∧ t.cnt = s.cnt := by
  rcases step_store_cases h with ⟨hr', -, -⟩ | ⟨b, -, hd, -, -⟩ | ⟨-, -, hf, hc⟩
  · simp [hr] at hr'
  · exact absurd hd (hp b)
  · exact ⟨hf, hc⟩

/-- Settles O17: a write changes the byte at the pointer alone. -/
theorem onlyPushWritesTheFrameStore : Obligations.OnlyPushWritesTheFrameStore := by
  refine ⟨fun s t k h hr hk => ?_, fun s t h hr k => ?_, fun b s h9 => ?_⟩
  · rcases step_store_cases h with ⟨hr', -, -⟩ | ⟨b, -, hd, hf, -⟩ | ⟨-, -, hf, -⟩
    · simp [hr] at hr'
    · have hidx : k = pushIndex s.cnt := by
        by_contra hne
        exact hk (by rw [hf, Memory.read_write_other _ _ hne])
      exact ⟨b, hd, by rw [hidx, pushIndex_val_eq_ite], by rw [hf, hidx, Memory.read_write_same]⟩
    · exact absurd (by rw [hf]) hk
  · rw [eq_resetBlock_of_step h hr]
    rfl
  · have hidx : pushIndex s.cnt = 9 := Fin.ext (by rw [pushIndex_val, h9]; rfl)
    exact ⟨pushByte b s, rfl, by rw [pushByte_frame, hidx, Memory.read_write_same]⟩

/-- Settles O18: each clause is one case of what a step does to the counter. -/
theorem onlyPushAndResetWriteTheCounter : Obligations.OnlyPushAndResetWriteTheCounter := by
  refine ⟨fun s t h hr hp => (step_not_push h hr hp).2, fun s t h hr => ?_, fun s t b h hr hd => ?_,
    fun d s => ⟨quiet s, rfl, rfl⟩, fun q s => ⟨_, rfl, request_cnt _ _ _⟩⟩
  · rw [eq_resetBlock_of_step h hr]
    rfl
  · rw [eq_pushByte_of_step h hr hd, pushByte_cnt, cntAfterPush_val, pushIndex_val_eq_ite]
    rfl

/-- Without reset a counter that has left 0 does not return there. -/
theorem step_cnt_ne_zero {s t : State} (h : step s = .next t) (hr : s.presented.rst = false) (h0 : s.cnt ≠ 0) :
    t.cnt ≠ 0 := by
  rcases step_store_cases h with ⟨hr', -, -⟩ | ⟨b, -, -, -, hc⟩ | ⟨-, -, -, hc⟩
  · simp [hr] at hr'
  · rw [hc]
    exact cntAfterPush_ne_zero _
  · rwa [hc]

theorem feed_cnt_ne_zero {s t : State} {xs : List PortSample} (h0 : s.cnt ≠ 0) (hx : NoReset xs)
    (h : feed s xs = .next t) : t.cnt ≠ 0 :=
  feed_induction (P := fun s => s.cnt ≠ 0) (Q := fun x => x.rst = false)
    (fun _ _ _ h0 hr hs => step_cnt_ne_zero hs hr h0) h0 hx h

/-- A driven step without reset leaves the counter at 0 exactly when it was there and no byte came. -/
theorem step_drive_cnt_eq_zero_iff {s t : State} {x : PortSample} (h : step (s.drive x) = .next t)
    (hr : x.rst = false) (h0 : s.cnt = 0) : t.cnt = 0 ↔ pushedByte x = none := by
  rcases step_store_cases h with ⟨hr', -, -⟩ | ⟨b, -, hd, -, hc⟩ | ⟨-, hp, -, hc⟩
  · exact absurd (hr.symm.trans hr') (by decide)
  · simp [pushedByte_push hr hd, hc, cntAfterPush_ne_zero]
  · simp [(pushedByte_eq_none_iff hr).mpr hp, hc, h0]

theorem noPush_cons {x : PortSample} {xs : List PortSample} : NoPush (x :: xs) ↔ pushedByte x = none ∧ NoPush xs :=
  List.forall_mem_cons

/-- Settles O16: the first byte moves the counter off 0, and no step without reset brings it back. -/
theorem counterZeroOnlyBeforeFirstPush : Obligations.CounterZeroOnlyBeforeFirstPush := by
  refine ⟨fun s t xs h0 hx h => ?_, fun s t xs => feed_cnt_ne_zero⟩
  induction xs generalizing s with
  | nil => cases h; simp [h0, NoPush]
  | cons x xs ih =>
    obtain ⟨u, hu, hf⟩ := feed_cons_inv h
    obtain ⟨hr, hxs⟩ := List.forall_mem_cons.mp hx
    have hcnt : u.cnt = 0 ↔ pushedByte x = none := step_drive_cnt_eq_zero_iff hu hr h0
    rw [noPush_cons, ← hcnt]
    by_cases hu0 : u.cnt = 0
    · simpa [hu0] using ih u hu0 hxs hf
    · simp [hu0, feed_cnt_ne_zero hu0 hxs hf]

theorem phase_frameReady_iff (s : State) : s.phase = .frameReady ↔ s.cnt = 10 := by simp [State.phase]

theorem phase_awaitingFrame_iff (s : State) : s.phase = .awaitingFrame ↔ s.cnt ≠ 10 := by simp [State.phase]

/-- A step brings the counter to 10 from elsewhere only by a PUSH from 9. -/
theorem step_enters_ten {s t : State} (h : step s = .next t) (hs : s.cnt ≠ 10) (ht : t.cnt = 10) :
    s.presented.rst = false ∧ s.cnt.val = 9 ∧ ∃ b, decode s.presented.cmd = .push b := by
  rcases step_store_cases h with ⟨-, -, hc⟩ | ⟨b, hr, hd, -, hc⟩ | ⟨-, -, -, hc⟩
  · simp [hc] at ht
  · exact ⟨hr, (cntAfterPush_eq_ten_iff _).mp (hc ▸ ht), b, hd⟩
  · exact absurd (hc ▸ ht) hs

/-- A step takes the counter off 10 exactly when it is a reset or a PUSH. -/
theorem step_leaves_ten_iff {s t : State} (h : step s = .next t) (hs : s.cnt = 10) :
    t.cnt ≠ 10 ↔ s.presented.rst = true ∨ ∃ b, decode s.presented.cmd = .push b := by
  rcases step_store_cases h with ⟨hr, -, hc⟩ | ⟨b, -, hd, -, hc⟩ | ⟨hr, hp, -, hc⟩
  · simp [hr, hc]
  · have hne : cntAfterPush s.cnt ≠ 10 := by simp [cntAfterPush_eq_ten_iff, hs]
    simp [hd, hc, hne]
  · simp [hr, hp, hc, hs]

/-- Settles O41: the phase is the counter's, and only a PUSH or a reset moves that. -/
theorem phaseFollowsTheCounter : Obligations.PhaseFollowsTheCounter := by
  refine ⟨fun s => ⟨phase_frameReady_iff s, phase_awaitingFrame_iff s⟩, fun s t h hs ht => ?_, fun s t h hs => ?_⟩
  · exact step_enters_ten h ((phase_awaitingFrame_iff s).mp hs) ((phase_frameReady_iff t).mp ht)
  · rw [phase_awaitingFrame_iff]
    exact step_leaves_ten_iff h ((phase_frameReady_iff s).mp hs)

end Sys2Proof.Machine
end

section
/-!
Two noninterference facts: bytes past the counter and the padding byte never show (spec/10_state.md R16, R28), and no
operation reads the indicator (R22).
-/

namespace Sys2Proof.Machine

section agree
variable {s t : State} (h : AgreeOnFilled s t)
include h

theorem quiet_agree : AgreeOnFilled (quiet s) (quiet t) :=
  ⟨h.cnt, h.lastId, h.led, h.bytes⟩

/-- PUSH writes the same byte at the same index on both sides, and the new counter takes in that index alone. -/
theorem pushByte_agree (b : Byte) : AgreeOnFilled (pushByte b s) (pushByte b t) := by
  refine ⟨by simp [h.cnt], h.lastId, rfl, fun k hk h9 => ?_⟩
  rw [pushByte_frame, pushByte_frame, ← h.cnt]
  by_cases hidx : k = pushIndex s.cnt
  · rw [hidx, Memory.read_write_same, Memory.read_write_same]
  · rw [Memory.read_write_other _ _ hidx, Memory.read_write_other _ _ hidx]
    have hv : k.val ≠ s.cnt.val % 10 := fun e => hidx (Fin.ext (e.trans (pushIndex_val _).symm))
    rw [pushByte_cnt, cntAfterPush_val, pushIndex_val] at hk
    exact h.bytes k (by omega) h9

theorem read_eq_of_agree (hc : s.cnt = 10) {k : Fin 10} (h9 : k ≠ 9) : s.frame.read k = t.frame.read k :=
  h.bytes k (by rw [hc]; exact k.isLt) h9

theorem reportA_eq_of_agree (hc : s.cnt = 10) (p : Params) : reportA p s.frame = reportA p t.frame := by
  have hr {k : Fin 10} : k ≠ 9 → s.frame.read k = t.frame.read k := read_eq_of_agree h hc
  simp only [reportA, layoutA, hr (k := 0) (by decide), hr (k := 1) (by decide)]

theorem reportB_eq_of_agree (hc : s.cnt = 10) (p : Params) : reportB p s.frame = reportB p t.frame := by
  have hr {k : Fin 10} : k ≠ 9 → s.frame.read k = t.frame.read k := read_eq_of_agree h hc
  simp only [reportB, layoutB, hr (k := 2) (by decide), hr (k := 3) (by decide), hr (k := 4) (by decide),
    hr (k := 5) (by decide), hr (k := 6) (by decide), hr (k := 7) (by decide), hr (k := 8) (by decide)]

/-- REQ takes the same branch on both sides, and a layout reads neither a byte past the counter nor the padding byte. -/
theorem request_agree (p : Params) (q : Byte) :
    AgreeOnFilled (request p q s) (request p q t) ∧ (request p q s).rsp = (request p q t).rsp := by
  have hcnt := h.cnt
  have hid : resolveId p q s.lastId = resolveId p q t.lastId := by rw [h.lastId]
  rcases request_cases p q s with ⟨hc, e⟩ | ⟨hc, hA, e⟩ | ⟨hc, hB, e⟩ | ⟨hc, hA, hB, e⟩ <;> rw [e]
  · rw [request_notReady p q t (hcnt ▸ hc)]
    exact ⟨⟨h.cnt, h.lastId, h.led, h.bytes⟩, rfl⟩
  · rw [request_A p q t (hcnt ▸ hc) (hid ▸ hA)]
    exact ⟨⟨h.cnt, rfl, rfl, h.bytes⟩, reportA_eq_of_agree h hc p⟩
  · rw [request_B p q t (hcnt ▸ hc) (hid ▸ hB)]
    exact ⟨⟨h.cnt, rfl, rfl, h.bytes⟩, reportB_eq_of_agree h hc p⟩
  · rw [request_unrecognized p q t (hcnt ▸ hc) (hid ▸ hA) (hid ▸ hB)]
    exact ⟨⟨h.cnt, hid, h.led, h.bytes⟩, rfl⟩

/-- A step driven with the same sample on both sides is refused on both, or keeps the agreement and responds alike. -/
theorem step_agree (x : PortSample) :
    (∃ r, step (s.drive x) = .refused r ∧ step (t.drive x) = .refused r) ∨
    (∃ u v, step (s.drive x) = .next u ∧ step (t.drive x) = .next v ∧ AgreeOnFilled u v ∧ u.rsp = v.rsp) := by
  cases hr : x.rst with
  | true => exact .inr ⟨_, _, step_drive_rst s hr, step_drive_rst t hr, ⟨rfl, rfl, rfl, fun _ _ _ => rfl⟩, rfl⟩
  | false =>
    rw [step_drive_cmd s hr, step_drive_cmd t hr]
    cases decode x.cmd with
    | idle d => exact .inr ⟨_, _, rfl, rfl, quiet_agree h, rfl⟩
    | push b => exact .inr ⟨_, _, rfl, rfl, pushByte_agree h b, rfl⟩
    | req q => exact .inr ⟨_, _, rfl, rfl, request_agree h Config.params q⟩
    | reserved d => exact .inl ⟨_, rfl, rfl⟩

end agree

theorem responses_cons_refused {s : State} {x : PortSample} {r : Refusal} (xs : List PortSample)
    (h : step (s.drive x) = .refused r) : responses s (x :: xs) = [] := by
  simp [responses, h]

/-- Settles O40, by induction on the stream: every step keeps the agreement and responds alike. -/
theorem unfilledBytesAreNeverObserved : Obligations.UnfilledBytesAreNeverObserved := by
  intro s t xs h
  induction xs generalizing s t with
  | nil => rfl
  | cons x xs ih =>
    rcases step_agree h x with ⟨r, hs, ht⟩ | ⟨u, v, hs, ht, huv, hrsp⟩
    · rw [responses_cons_refused xs hs, responses_cons_refused xs ht]
    · rw [responses_cons_next xs hs, responses_cons_next xs ht, hrsp, ih u v huv]

/-- REQ clears the indicator with an OK answer, and otherwise leaves it (41_synthesis.md R68). -/
theorem request_led_cases (p : Params) (q : Byte) (s : State) :
    ((request p q s).led = false ∧ (request p q s).rsp.status = .ok) ∨ (request p q s).led = s.led := by
  rcases request_cases p q s with ⟨-, e⟩ | ⟨-, -, e⟩ | ⟨-, -, e⟩ | ⟨-, -, -, e⟩ <;> rw [e]
  · exact .inr rfl
  · exact .inl ⟨rfl, rfl⟩
  · exact .inl ⟨rfl, rfl⟩
  · exact .inr rfl

/-- What a step does to the indicator. -/
theorem step_led_cases {s t : State} (h : step s = .next t) :
    (t.led = false ∧ (s.presented.rst = true ∨ t.rsp.status = .ok)) ∨
    (t.led = true ∧ ∃ b, decode s.presented.cmd = .push b) ∨ t.led = s.led := by
  rcases step_next_cases h with ⟨hr, rfl⟩ | ⟨d, -, -, rfl⟩ | ⟨b, -, hd, rfl⟩ | ⟨q, -, -, rfl⟩
  · exact .inl ⟨rfl, .inl hr⟩
  · exact .inr (.inr rfl)
  · exact .inr (.inl ⟨rfl, b, hd⟩)
  · rcases request_led_cases Config.params q s.popInput with ⟨hl, hok⟩ | hl
    · exact .inl ⟨hl, .inr hok⟩
    · exact .inr (.inr hl)

/-- REQ does not read the indicator. -/
theorem request_setLed (p : Params) (q : Byte) (s : State) (v : Bool) :
    ∃ w, request p q (s.setLed v) = (request p q s).setLed w := by
  rcases request_cases p q s with ⟨hc, e⟩ | ⟨hc, hA, e⟩ | ⟨hc, hB, e⟩ | ⟨hc, hA, hB, e⟩ <;> rw [e]
  · exact ⟨v, request_notReady p q _ hc⟩
  · exact ⟨false, request_A p q _ hc hA⟩
  · exact ⟨false, request_B p q _ hc hB⟩
  · exact ⟨v, request_unrecognized p q _ hc hA hB⟩

/-- No step reads the indicator: changing it before a step changes at most the indicator after it. -/
theorem step_setLed {s t : State} (v : Bool) (h : step s = .next t) :
    ∃ w, step (s.setLed v) = .next (t.setLed w) := by
  have hp : (s.setLed v).presented = s.presented := rfl
  have hpop : (s.setLed v).popInput = s.popInput.setLed v := rfl
  rcases step_next_cases h with ⟨hr, rfl⟩ | ⟨d, hr, hd, rfl⟩ | ⟨b, hr, hd, rfl⟩ | ⟨q, hr, hd, rfl⟩
  · exact ⟨false, step_rst hr⟩
  all_goals rw [step_cmd (hp ▸ hr), hp, hd, hpop]
  · exact ⟨v, rfl⟩
  · exact ⟨true, rfl⟩
  · obtain ⟨w, hw⟩ := request_setLed Config.params q s.popInput v
    exact ⟨w, by rw [exec_req, hw]⟩

/-- Settles O42: the first clause is PUSH itself, the next two read off what a step does to the indicator, the last holds
because no operation reads it. -/
theorem indicatorIsOnlyObservational : Obligations.IndicatorIsOnlyObservational := by
  refine ⟨fun s t b h hr hd => ?_, fun s t h hs ht => ?_, fun s t h hs ht => ?_, fun s t v h => ?_⟩
  · rw [eq_pushByte_of_step h hr hd, pushByte_led]
  · rcases step_led_cases h with ⟨hl, -⟩ | ⟨-, hd⟩ | hl
    · simp [ht] at hl
    · exact hd
    · simp [ht, hs] at hl
  · rcases step_led_cases h with ⟨-, hclear⟩ | ⟨hl, -⟩ | hl
    · exact hclear
    · simp [ht] at hl
    · simp [ht, hs] at hl
  · obtain ⟨w, hw⟩ := step_setLed v h
    exact ⟨t.setLed w, hw, rfl, rfl, rfl, rfl, rfl⟩

end Sys2Proof.Machine
end

section
/-!
The frame store as the command stream sees it: the host's run takes the listed samples in order (spec/20_memory.md R39),
and bytes land in arrival order (R32).
-/

namespace Sys2Proof.Machine

/-- A step does not read the samples listed after its own. -/
theorem step_drive_withInputs {s t : State} {x : PortSample} (ys : List PortSample) (h : step (s.drive x) = .next t) :
    step (({ s with inputs := ys } : State).drive x) = .next { t with inputs := ys } := by
  rcases step_drive_next_cases h with ⟨hr, rfl⟩ | ⟨d, hr, hd, rfl⟩ | ⟨b, hr, hd, rfl⟩ | ⟨q, hr, hd, rfl⟩
  · exact step_drive_rst _ hr
  · rw [step_drive_cmd _ hr, hd]
    rfl
  · rw [step_drive_cmd _ hr, hd]
    rfl
  · rw [step_drive_cmd _ hr, hd, exec_req]
    exact congrArg _ (request_ports _ q s ys s.rsp)

theorem step_drive_inputs {s t : State} {x : PortSample} (h : step (s.drive x) = .next t) : t.inputs = s.inputs :=
  step_inputs h

theorem feed_cons_refused {s : State} {x : PortSample} {r : Refusal} (xs : List PortSample)
    (h : step (s.drive x) = .refused r) : feed s (x :: xs) = .refused r := by
  simp [feed, h]

/-- Whether a sample is refused depends on the sample alone. -/
theorem step_drive_refused {s : State} {x : PortSample} {r : Refusal} (h : step (s.drive x) = .refused r) (s' : State) :
    step (s'.drive x) = .refused r := by
  cases hl : x.legal with
  | true => cases (step_of_legal (s := s.drive x) hl).symm.trans h
  | false => exact (step_of_not_legal (s := s'.drive x) hl).trans ((step_of_not_legal (s := s.drive x) hl).symm.trans h)

/-- Settles O8, by induction on the stream: a step leaves the samples after its own as they were, so the run of the rest
starts where driving the rest does. -/
theorem coreRunFollowsInputStream : Obligations.CoreRunFollowsInputStream := by
  intro s xs
  induction xs generalizing s with
  | nil => rfl
  | cons x xs ih =>
    cases hs : step (s.drive x) with
    | next t =>
      have hrun := step_drive_withInputs (xs ++ s.inputs) hs
      rw [feed_cons_next xs hs, ← ih t, step_drive_inputs hs]
      exact core_run_next xs.length hrun
    | refused r =>
      rw [feed_cons_refused xs hs]
      exact core_run_refused xs.length (step_drive_refused hs { s with inputs := xs ++ s.inputs })
    | fault r => cases r

/-- The frame that began at a frame-aligned state has received the bytes `bs`, in this order, and no other. -/
structure State.FilledBy (s : State) (bs : List Byte) : Prop where
  read_eq : ∀ (k : Fin 10) (b : Byte), bs[k.val]? = some b → s.frame.read k = b
  cnt_aligned : bs = [] → s.cnt = 0 ∨ s.cnt = 10
  cnt_eq_length : bs ≠ [] → s.cnt.val = bs.length

namespace State.FilledBy

theorem of_aligned {s : State} (h : s.cnt = 0 ∨ s.cnt = 10) : s.FilledBy [] where
  read_eq k b hb := by simp at hb
  cnt_aligned _ := h
  cnt_eq_length h0 := absurd rfl h0

variable {s t : State} {bs : List Byte}

/-- Only the frame store and the counter tell which bytes have arrived. -/
theorem congr (h : s.FilledBy bs) (hf : t.frame = s.frame) (hc : t.cnt = s.cnt) : t.FilledBy bs where
  read_eq := hf ▸ h.read_eq
  cnt_aligned := hc ▸ h.cnt_aligned
  cnt_eq_length := hc ▸ h.cnt_eq_length

/-- The pointer of PUSH stands behind the bytes received. -/
theorem pushIndex_val_eq_length (h : s.FilledBy bs) (hlt : bs.length < 10) : (pushIndex s.cnt).val = bs.length := by
  rw [pushIndex_val]
  by_cases h0 : bs = []
  · rcases h.cnt_aligned h0 with hc | hc <;> rw [hc, h0] <;> rfl
  · rw [h.cnt_eq_length h0, Nat.mod_eq_of_lt hlt]

/-- PUSH appends its byte to those received, as long as the frame is not full. -/
theorem after_push (h : s.FilledBy bs) (hlt : bs.length < 10) {b : Byte} (hf : t.frame = s.frame.write (pushIndex s.cnt) b)
    (hc : t.cnt = cntAfterPush s.cnt) : t.FilledBy (bs ++ [b]) := by
  have hidx := h.pushIndex_val_eq_length hlt
  refine ⟨fun k c hk => ?_, fun h0 => absurd h0 (by simp), fun _ => ?_⟩
  · rw [hf]
    by_cases hki : k = pushIndex s.cnt
    · have hbc : b = c := by simpa [hki, hidx] using hk
      rw [hki, Memory.read_write_same, hbc]
    · have hne : k.val ≠ bs.length := fun e => hki (Fin.ext (e.trans hidx.symm))
      rw [Memory.read_write_other _ _ hki]
      have hold : bs[k.val]? = some c := by grind
      exact h.read_eq k c hold
  · rw [hc, cntAfterPush_val, hidx, List.length_append, List.length_singleton]

/-- Along a run without reset that does not overfill the frame, the bytes delivered are appended in order. -/
theorem after_feed {xs : List PortSample} (h : s.FilledBy bs) (hx : NoReset xs)
    (hlen : bs.length + (pushedBytes xs).length ≤ 10) (hfeed : feed s xs = .next t) :
    t.FilledBy (bs ++ pushedBytes xs) := by
  induction xs generalizing s bs with
  | nil => cases hfeed; simpa using h
  | cons x xs ih =>
    obtain ⟨u, hu, hf⟩ := feed_cons_inv hfeed
    obtain ⟨hr, hxs⟩ := List.forall_mem_cons.mp hx
    rcases step_store_cases hu with ⟨hr', -, -⟩ | ⟨b, -, hd, hframe, hcnt⟩ | ⟨-, hp, hframe, hcnt⟩
    · exact absurd (hr.symm.trans hr') (by decide)
    · rw [pushedBytes_cons_some xs (pushedByte_push hr hd)] at hlen ⊢
      rw [List.length_cons] at hlen
      have hub : u.FilledBy (bs ++ [b]) := h.after_push (by omega) hframe hcnt
      simpa using ih hub hxs (by simp; omega) hf
    · rw [pushedBytes_cons_none xs ((pushedByte_eq_none_iff hr).mpr hp)] at hlen ⊢
      exact ih (h.congr hframe hcnt) hxs hlen hf

end State.FilledBy

/-- Settles O19: from an aligned state no byte has arrived yet, and the run appends its bytes in order. -/
theorem arrivalOrderIsIndexOrder : Obligations.ArrivalOrderIsIndexOrder := by
  intro s t xs hs hx hlen hfeed
  have ht : t.FilledBy ([] ++ pushedBytes xs) := (State.FilledBy.of_aligned hs).after_feed hx (by simpa using hlen) hfeed
  exact ⟨ht.read_eq, ht.cnt_eq_length⟩

end Sys2Proof.Machine
end

section
/-!
The command word and its two fields (spec/30_encoding.md R45, R51): the decoder reads the operation from one field and the
data from the other, and the encoder puts them there.
-/

namespace Sys2Proof

@[simp] theorem decode_op (w : CmdWord) : (decode w).op = opField w := by
  rcases decode_cases w with ⟨h, e⟩ | ⟨h, e⟩ | ⟨h, e⟩ | ⟨h, e⟩ <;> rw [e, h] <;> rfl

@[simp] theorem decode_data (w : CmdWord) : (decode w).data = dataField w := by
  rcases decode_cases w with ⟨-, e⟩ | ⟨-, e⟩ | ⟨-, e⟩ | ⟨-, e⟩ <;> rw [e] <;> rfl

theorem decode_encode (i : Instr) : decode (encode i) = i := by
  cases i with
  | idle d => exact (decode_idle (opField_cmdWord _ _)).trans (congrArg Instr.idle (dataField_cmdWord _ _))
  | push b => exact (decode_push (opField_cmdWord _ _)).trans (congrArg Instr.push (dataField_cmdWord _ _))
  | req q => exact (decode_req (opField_cmdWord _ _)).trans (congrArg Instr.req (dataField_cmdWord _ _))
  | reserved d => exact (decode_reserved (opField_cmdWord _ _)).trans (congrArg Instr.reserved (dataField_cmdWord _ _))

theorem encode_decode (w : CmdWord) : encode (decode w) = w := by
  rw [encode, decode_op, decode_data, cmdWord_fields]

/-- Settles O9: the decoder selects an encoding's own row and reads its own data byte, and a word is its two fields. -/
theorem decodeAndEncodeAgree : Obligations.DecodeAndEncodeAgree :=
  ⟨decode_encode, encode_decode⟩

/-- Settles O10: each word is one the decoder evaluates. -/
theorem wordsOfTheSpecDecode : Obligations.WordsOfTheSpecDecode := by
  unfold Obligations.WordsOfTheSpecDecode
  decide

/-- The `match` of a row is its operation code with no data. -/
theorem tableMatch_eq (i : Instr) : i.tableMatch = cmdWord i.op 0#8 := by
  cases i with
  | idle d => show 0x000#10 = cmdWord 0b00#2 0#8; decide
  | push b => show 0x100#10 = cmdWord 0b01#2 0#8; decide
  | req q => show 0x200#10 = cmdWord 0b10#2 0#8; decide
  | reserved d => show 0x300#10 = cmdWord 0b11#2 0#8; decide

theorem cmdWord_left_inj {op op' : BitVec 2} {d : Byte} : cmdWord op d = cmdWord op' d ↔ op = op' := by
  constructor
  · intro h
    rw [← opField_cmdWord op d, h, opField_cmdWord]
  · rintro rfl
    rfl

theorem and_tableMask (w : CmdWord) : w &&& tableMask = cmdWord (opField w) 0#8 := by
  rw [← Laws.TableRow.masked (opField w) (dataField w), cmdWord_fields]

/-- Settles O11: under the mask a word keeps its operation field alone, which is what a row's `match` holds. -/
theorem opcodeRowsPartitionTheWords : Obligations.OpcodeRowsPartitionTheWords := by
  refine ⟨fun w i => ?_, fun v w h => ?_⟩
  · rw [and_tableMask, tableMatch_eq, cmdWord_left_inj, decode_op]
  · rw [decode_op, decode_op, h]

end Sys2Proof
end

section
/-!
The response port (spec/30_encoding.md R44, R48, R49) and the reserved class (R46).
-/

namespace Sys2Proof.Machine

theorem request_withRsp (p : Params) (q : Byte) (s : State) (r : Response) :
    request p q { s with rsp := r } = request p q s :=
  calc request p q { s with rsp := r }
    _ = { request p q s with inputs := s.inputs } := request_ports p q s s.inputs r
    _ = request p q s := State.ext_fields rfl rfl rfl rfl (request_inputs p q s).symm rfl

/-- No operation reads the response held. -/
theorem exec_withRsp (i : Instr) (s : State) (r : Response) : exec i { s with rsp := r } = exec i s := by
  cases i with
  | idle d => rfl
  | push b => rfl
  | req q => exact congrArg Host.Outcome.next (request_withRsp _ q s r)
  | reserved d => rfl

theorem step_withRsp (s : State) (r : Response) : step { s with rsp := r } = step s := by
  cases h : s.presented.rst with
  | true => exact (step_rst (s := { s with rsp := r }) h).trans (step_rst h).symm
  | false =>
    rw [step_cmd h, ← exec_withRsp _ s.popInput r]
    exact step_cmd (s := { s with rsp := r }) h

/-- Settles O6: every arm drives the response anew, and only that of REQ drives another than NONE. -/
theorem responseIsFreshEveryStep : Obligations.ResponseIsFreshEveryStep := by
  refine ⟨step_withRsp, fun s t h hno => ?_⟩
  rcases step_next_cases h with ⟨-, rfl⟩ | ⟨d, -, -, rfl⟩ | ⟨b, -, -, rfl⟩ | ⟨q, hr, hd, -⟩
  · rfl
  · rfl
  · rfl
  · rcases hno with hr' | hq
    · exact absurd (hr.symm.trans hr') (by decide)
    · exact absurd hd (hq q)

/-- A field is read once the fields below it are dropped, here one byte at a time. -/
theorem payloadPort_byte (r : Response) (j : Fin 7) : r.payloadPort.extractLsb' (8 * j.val) 8 = r.payload[j] := by
  unfold Response.payloadPort
  match j with
  | 6 =>
    repeat rw [BitVec.extractLsb'_append_eq_of_le (by decide)]
    exact BitVec.extractLsb'_eq_self
  | 0 | 1 | 2 | 3 | 4 | 5 =>
    repeat rw [BitVec.extractLsb'_append_eq_of_le (by decide)]
    exact BitVec.extractLsb'_append_eq_right

/-- Settles O7: the bundle is cut from its least significant field up, the payload port byte by byte. -/
theorem responseBundleLayout : Obligations.ResponseBundleLayout := by
  refine ⟨fun r => ⟨?_, ?_, ?_, ?_, payloadPort_byte r⟩, rfl, rfl, rfl, rfl⟩ <;> unfold Response.bundle
  · repeat rw [BitVec.extractLsb'_append_eq_of_le (by decide)]
    exact BitVec.extractLsb'_eq_self
  · repeat rw [BitVec.extractLsb'_append_eq_of_le (by decide)]
    exact BitVec.extractLsb'_append_eq_right
  · repeat rw [BitVec.extractLsb'_append_eq_of_le (by decide)]
    exact BitVec.extractLsb'_append_eq_right
  · exact BitVec.extractLsb'_append_eq_right

theorem decode_eq_reserved_iff (w : CmdWord) : decode w = .reserved (dataField w) ↔ opField w = 0b11#2 := by
  constructor
  · intro h
    rw [← decode_op, h]
    rfl
  · exact decode_reserved

/-- A step refuses exactly the samples an integrator must not drive, each with its own data byte. -/
theorem step_refused_iff (s : State) (r : Refusal) :
    step s = .refused r ↔ s.presented.legal = false ∧ r = .reservedCommand (dataField s.presented.cmd) := by
  cases h : s.presented.legal with
  | true => simp [step_of_legal h]
  | false => simp [step_of_not_legal h, eq_comm]

/-- On a reserved word conforming hardware acts like `IDLE` (30_encoding.md R46). -/
theorem blockStep_reserved (p : Params) {s : State} (hr : s.presented.rst = false)
    (hop : opField s.presented.cmd = 0b11#2) : blockStep p s = quiet s.popInput := by
  rw [blockStep_cmd p hr, decode_reserved hop]
  rfl

/-- Settles O12: the refused samples are those with the reserved operation code and no reset, and there the hardware only
responds NONE. -/
theorem reservedWordsAreRefused : Obligations.ReservedWordsAreRefused := by
  refine ⟨exec_reserved, fun s r => ?_, fun p s hr hop => ?_⟩
  · rw [step_refused_iff, legal_eq_false_iff, decode_eq_reserved_iff, and_assoc]
  · rw [blockStep_reserved p hr hop]
    exact ⟨⟨rfl, rfl, rfl, rfl⟩, rfl, rfl⟩

end Sys2Proof.Machine
end

section
/-!
The samples a line of assembly stands for (spec/30_encoding.md R53, R54), and that none holds a reserved word (R55).
-/

namespace Sys2Proof.Machine

/-- The sample of a command an integrator may issue has another operation code than the reserved one. -/
theorem opField_cmdSample_of_wf {i : Instr} (h : i.wf = true) : opField (cmdSample i).cmd ≠ 0b11#2 := by
  intro hop
  have hi : i = .reserved (dataField (encode i)) := (decode_encode i).symm.trans (decode_reserved hop)
  rw [hi] at h
  cases h

/-- No line stands for a sample with the reserved operation code. -/
theorem opField_of_mem_expand {p : Params} {l : AsmLine} {x : PortSample} (h : x ∈ l.expand p) :
    opField x.cmd ≠ 0b11#2 := by
  cases l with
  | frame bs =>
    obtain ⟨b, -, rfl⟩ := List.mem_map.mp h
    exact opField_cmdSample_of_wf rfl
  | wait n =>
    rw [List.eq_of_mem_replicate h]
    exact opField_cmdSample_of_wf rfl
  | reset =>
    rw [List.mem_singleton.mp h]
    decide
  | _ =>
    rw [List.mem_singleton.mp h]
    exact opField_cmdSample_of_wf rfl

theorem assembleLine_of_blank (p : Params) {line : List Char} (h : lineBody line = []) : assembleLine p line = .ok [] := by
  simp [assembleLine, parseLine, h]

theorem opField_of_mem_assembleLine {p : Params} {line : List Char} {xs : List PortSample}
    (h : assembleLine p line = .ok xs) {x : PortSample} (hx : x ∈ xs) : opField x.cmd ≠ 0b11#2 := by
  by_cases hb : lineBody line = []
  · cases (assembleLine_of_blank p hb).symm.trans h
    cases hx
  · obtain ⟨l, -, rfl⟩ := assembleLine_ok hb h
    exact opField_of_mem_expand hx

/-- An accepted text is an accepted line and an accepted text. -/
theorem assemble_cons_inv {p : Params} {line : List Char} {lines : List (List Char)} {zs : List PortSample}
    (h : assemble p (line :: lines) = .ok zs) :
    ∃ xs ys, assembleLine p line = .ok xs ∧ assemble p lines = .ok ys ∧ zs = xs ++ ys := by
  cases hl : assembleLine p line with
  | error e => cases (assemble_cons_error lines hl).symm.trans h
  | ok xs =>
    rw [assemble_cons_ok lines hl] at h
    cases ht : assemble p lines with
    | error e => rw [ht] at h; cases h
    | ok ys => rw [ht] at h; cases h; exact ⟨xs, ys, rfl, rfl, rfl⟩

theorem opField_of_mem_assemble {p : Params} {lines : List (List Char)} {zs : List PortSample}
    (h : assemble p lines = .ok zs) {x : PortSample} (hx : x ∈ zs) : opField x.cmd ≠ 0b11#2 := by
  induction lines generalizing zs with
  | nil => cases h; cases hx
  | cons line lines ih =>
    obtain ⟨xs, ys, hl, ht, rfl⟩ := assemble_cons_inv h
    rcases List.mem_append.mp hx with hx | hx
    · exact opField_of_mem_assembleLine hl hx
    · exact ih ht hx

theorem legal_of_opField {x : PortSample} (h : opField x.cmd ≠ 0b11#2) : x.legal = true := by
  by_contra hl
  exact h ((decode_eq_reserved_iff _).mp ((legal_eq_false_iff x).mp (Bool.eq_false_of_not_eq_true hl)).2)

/-- Settles O43: a text's samples are its lines', and each line's words have the operation code of a command. -/
theorem noSyntaxSpellsAReservedWord : Obligations.NoSyntaxSpellsAReservedWord :=
  fun _ _ _ h => ⟨fun _ hx => legal_of_opField (opField_of_mem_assemble h hx), fun _ hx => opField_of_mem_assemble h hx⟩

/-- A command word as the number R53 writes: the operation code in steps of 0x100, and the data byte. -/
theorem cmdWord_eq_ofNat (op : BitVec 2) (d : Byte) : cmdWord op d = BitVec.ofNat 10 (0x100 * op.toNat + d.toNat) := by
  apply BitVec.eq_of_toNat_eq
  have hop := op.isLt
  have hd := d.isLt
  rw [cmdWord, BitVec.toNat_append, BitVec.toNat_ofNat, ← Nat.shiftLeft_add_eq_or_of_lt hd, Nat.shiftLeft_eq]
  omega

/-- `IDLE`, `PUSH` and `REQ` as R53 writes them. -/
theorem cmdSample_idle : cmdSample (.idle 0#8) = { rst := false, cmd := 0x000#10 } := by decide

theorem cmdSample_push (b : Byte) : cmdSample (.push b) = { rst := false, cmd := BitVec.ofNat 10 (0x100 + b.toNat) } :=
  congrArg (PortSample.mk false) (cmdWord_eq_ofNat 0b01#2 b)

theorem cmdSample_req (q : Byte) : cmdSample (.req q) = { rst := false, cmd := BitVec.ofNat 10 (0x200 + q.toNat) } :=
  congrArg (PortSample.mk false) (cmdWord_eq_ofNat 0b10#2 q)

theorem flatMap_expand_push (p : Params) (bs : List Byte) :
    bs.flatMap (fun c => (AsmLine.push c).expand p) = (AsmLine.frame bs).expand p :=
  (List.map_eq_flatMap).symm

/-- Settles O44: the pseudo-instructions are lists of the samples of `IDLE`, `PUSH` and `REQ`. -/
theorem assemblerWordsAndExpansions : Obligations.AssemblerWordsAndExpansions := by
  intro p b bs n
  refine ⟨?_, ?_, ?_, rfl, rfl, rfl, (flatMap_expand_push p bs).symm, ?_, rfl⟩
  · exact congrArg (fun x => [x]) cmdSample_idle
  · exact congrArg (fun x => [x]) (cmdSample_push b)
  · exact congrArg (fun x => [x]) (cmdSample_req b)
  · rw [List.flatMap_replicate]
    simp [AsmLine.expand]

end Sys2Proof.Machine
end

section
/-!
What the assembler rejects (spec/30_encoding.md R55), and what it accepts (R53, R54).
-/

namespace Sys2Proof.Machine

section commands
variable (ls : List (List Char))

theorem parseCommand_IDLE : parseCommand "IDLE".toList ls = noOperand .idle ls := rfl
theorem parseCommand_PUSH : parseCommand "PUSH".toList ls = oneByte .push ls := rfl
theorem parseCommand_REQ : parseCommand "REQ".toList ls = oneByte .req ls := rfl
theorem parseCommand_REQ_AUTO : parseCommand "REQ.AUTO".toList ls = noOperand .reqAuto ls := rfl
theorem parseCommand_REQ_A : parseCommand "REQ.A".toList ls = noOperand .reqA ls := rfl
theorem parseCommand_REQ_B : parseCommand "REQ.B".toList ls = noOperand .reqB ls := rfl
theorem parseCommand_FRAME : parseCommand "FRAME".toList ls = frameLine ls := rfl
theorem parseCommand_WAIT : parseCommand "WAIT".toList ls = oneByte (fun b => .wait b.toNat) ls := rfl
theorem parseCommand_RESET : parseCommand "RESET".toList ls = noOperand .reset ls := rfl

/-- The commands with one number. -/
theorem parseCommand_oneByte {m : List Char} (h : m ∈ ["PUSH".toList, "REQ".toList, "WAIT".toList]) :
    ∃ line : Byte → AsmLine, parseCommand m ls = oneByte line ls := by
  simp only [List.mem_cons, List.not_mem_nil, or_false] at h
  rcases h with rfl | rfl | rfl
  · exact ⟨_, parseCommand_PUSH ls⟩
  · exact ⟨_, parseCommand_REQ ls⟩
  · exact ⟨_, parseCommand_WAIT ls⟩

/-- The commands without operands. -/
theorem parseCommand_noOperand {m : List Char}
    (h : m ∈ ["IDLE".toList, "REQ.AUTO".toList, "REQ.A".toList, "REQ.B".toList, "RESET".toList]) :
    ∃ line : AsmLine, parseCommand m ls = noOperand line ls := by
  simp only [List.mem_cons, List.not_mem_nil, or_false] at h
  rcases h with rfl | rfl | rfl | rfl | rfl
  · exact ⟨_, parseCommand_IDLE ls⟩
  · exact ⟨_, parseCommand_REQ_AUTO ls⟩
  · exact ⟨_, parseCommand_REQ_A ls⟩
  · exact ⟨_, parseCommand_REQ_B ls⟩
  · exact ⟨_, parseCommand_RESET ls⟩

theorem parseCommand_unknown {m : List Char}
    (h : m ∉ ["IDLE".toList, "PUSH".toList, "REQ".toList, "REQ.AUTO".toList, "REQ.A".toList, "REQ.B".toList,
      "FRAME".toList, "WAIT".toList, "RESET".toList]) : parseCommand m ls = .error .unknownMnemonic := by
  simp only [List.mem_cons, List.not_mem_nil, or_false, not_or] at h
  simp only [parseCommand, h, if_false]

end commands

theorem noOperand_count (line : AsmLine) {ls : List (List Char)} (h : ls ≠ []) :
    noOperand line ls = .error .wrongOperandCount := by
  cases ls with
  | nil => exact absurd rfl h
  | cons l ls => rfl

theorem oneByte_of_lt (line : Byte → AsmLine) {l : List Char} {n : Nat} (h : parseNumber l = some n) (hn : n < 256) :
    oneByte line [l] = .ok (line (BitVec.ofNat 8 n)) := by
  simp [oneByte, byteOperand_of_lt h hn]

theorem frameLine_count {ls : List (List Char)} (h : ls.length ≠ 10) : frameLine ls = .error .frameOperandCount := by
  simp [frameLine, h]

theorem frameLine_of_numbers {ls : List (List Char)} {ns : List Nat} (h : ls.map parseNumber = ns.map some)
    (hlen : ns.length = 10) (hn : ∀ n ∈ ns, n < 256) : frameLine ls = .ok (.frame (ns.map (BitVec.ofNat 8))) := by
  have hls : ls.length = 10 := by simpa [hlen] using congrArg List.length h
  simp [frameLine, hls, byteOperands_of_numbers h hn]

theorem frameLine_frame_ok {ls : List (List Char)} {bs : List Byte} (h : frameLine ls = .ok (.frame bs)) :
    bs.length = 10 ∧ ∀ l ∈ ls, ∃ n, parseNumber l = some n ∧ n < 256 := by
  obtain ⟨cs, hlen, hcs, hr⟩ := frameLine_ok h
  cases hr
  obtain ⟨hl, hall⟩ := byteOperands_ok hcs
  refine ⟨hl.trans hlen, fun l hmem => ?_⟩
  obtain ⟨b, hb⟩ := hall l hmem
  obtain ⟨n, hp, hn, -⟩ := byteOperand_ok hb
  exact ⟨n, hp, hn⟩

section line
variable (p : Params) {line m : List Char}

/-- A line with a mnemonic is what its command is: rejected for the same reason. -/
theorem assembleLine_error_of_mnemonic {e : AsmError} (h : lineMnemonic line = m) (hm : m ≠ [])
    (hc : parseCommand m (lineOperands line) = .error e) : assembleLine p line = .error e :=
  assembleLine_of_error p (lineBody_ne_nil h hm) (h ▸ hc)

/-- A line with a mnemonic is what its command is: accepted with its expansion. -/
theorem assembleLine_ok_of_mnemonic {l : AsmLine} (h : lineMnemonic line = m) (hm : m ≠ [])
    (hc : parseCommand m (lineOperands line) = .ok l) : assembleLine p line = .ok (l.expand p) :=
  assembleLine_of_ok p (lineBody_ne_nil h hm) (h ▸ hc)

theorem assembleLine_oneByte_outOfRange {l : List Char} {n : Nat} (hp : parseNumber l = some n) (hn : 256 ≤ n)
    (hm : lineMnemonic line ∈ ["PUSH".toList, "REQ".toList, "WAIT".toList]) (ho : lineOperands line = [l]) :
    assembleLine p line = .error .operandOutOfRange := by
  obtain ⟨f, hf⟩ := parseCommand_oneByte (lineOperands line) hm
  refine assembleLine_error_of_mnemonic p rfl (ne_of_mem_of_not_mem hm (by decide)) ?_
  rw [hf, ho, oneByte_outOfRange f hp hn]

theorem assembleLine_oneByte_count (hm : lineMnemonic line ∈ ["PUSH".toList, "REQ".toList, "WAIT".toList])
    (hlen : (lineOperands line).length ≠ 1) : assembleLine p line = .error .wrongOperandCount := by
  obtain ⟨f, hf⟩ := parseCommand_oneByte (lineOperands line) hm
  exact assembleLine_error_of_mnemonic p rfl (ne_of_mem_of_not_mem hm (by decide)) (hf.trans (oneByte_count f hlen))

theorem assembleLine_noOperand_count
    (hm : lineMnemonic line ∈ ["IDLE".toList, "REQ.AUTO".toList, "REQ.A".toList, "REQ.B".toList, "RESET".toList])
    (ho : lineOperands line ≠ []) : assembleLine p line = .error .wrongOperandCount := by
  obtain ⟨l, hl⟩ := parseCommand_noOperand (lineOperands line) hm
  exact assembleLine_error_of_mnemonic p rfl (ne_of_mem_of_not_mem hm (by decide)) (hl.trans (noOperand_count l ho))

/-- An operand that is no number of 0..255 makes any line be rejected. -/
theorem assembleLine_bad_operand {l : List Char} (hb : lineBody line ≠ []) (hl : l ∈ lineOperands line)
    (hbad : ∀ n, parseNumber l = some n → 256 ≤ n) : ∃ e, assembleLine p line = .error e := by
  cases hc : parseCommand (lineMnemonic line) (lineOperands line) with
  | error e => exact ⟨e, assembleLine_of_error p hb hc⟩
  | ok r =>
    obtain ⟨b, hbyte⟩ := parseCommand_operands hc l hl
    obtain ⟨n, hp, hn, -⟩ := byteOperand_ok hbyte
    exact absurd (hbad n hp) (Nat.not_le.mpr hn)

end line

/-- A minus sign is no digit, and no number begins with it. -/
theorem parseNumber_minus (cs : List Char) : parseNumber ('-' :: cs) = none := rfl

/-- The first rejected line of a text rejects it. -/
theorem assemble_append_error {p : Params} {pre : List (List Char)} {line : List Char} {xs : List PortSample}
    {e : AsmError} (post : List (List Char)) (hpre : assemble p pre = .ok xs) (hline : assembleLine p line = .error e) :
    assemble p (pre ++ line :: post) = .error e := by
  induction pre generalizing xs with
  | nil => exact assemble_cons_error post hline
  | cons l pre ih =>
    obtain ⟨ys, zs, hl, ht, -⟩ := assemble_cons_inv hpre
    rw [List.cons_append, assemble_cons_ok _ hl, ih ht]

/-- Every line of an accepted text is accepted. -/
theorem assembleLine_of_mem {p : Params} {lines : List (List Char)} {zs : List PortSample}
    (h : assemble p lines = .ok zs) {line : List Char} (hline : line ∈ lines) : ∃ xs, assembleLine p line = .ok xs := by
  induction lines generalizing zs with
  | nil => cases hline
  | cons l lines ih =>
    obtain ⟨xs, ys, hl, ht, -⟩ := assemble_cons_inv h
    rcases List.mem_cons.mp hline with rfl | hmem
    · exact ⟨xs, hl⟩
    · exact ih ht hmem

theorem assemble_error_of_mem {p : Params} {lines : List (List Char)} {line : List Char} {e : AsmError}
    (hmem : line ∈ lines) (h : assembleLine p line = .error e) : ∃ e', assemble p lines = .error e' := by
  cases ht : assemble p lines with
  | error e' => exact ⟨e', rfl⟩
  | ok zs =>
    obtain ⟨xs, hx⟩ := assembleLine_of_mem ht hmem
    cases hx.symm.trans h

/-- Settles O45: each rejection is that of the command's operand reader, and a line and a text pass it on. -/
theorem assemblerRejections : Obligations.AssemblerRejections := by
  refine ⟨fun l n hp hn => ⟨?_, fun p line hm ho => assembleLine_oneByte_outOfRange p hp hn hm ho⟩,
    fun ls h => ?_, fun p line hm hlen => ?_, fun ls bs h => ?_, fun m hm => ⟨fun ls => parseCommand_unknown ls hm, ?_⟩,
    fun p line l hb hl hbad => assembleLine_bad_operand p hb hl hbad, parseNumber_minus,
    fun p line => ⟨assembleLine_oneByte_count p, assembleLine_noOperand_count p⟩,
    fun p pre post line xs e hpre hline => assemble_append_error post hpre hline,
    fun p lines line e hmem h => assemble_error_of_mem hmem h⟩
  · rw [parseCommand_PUSH, parseCommand_REQ, parseCommand_WAIT]
    exact ⟨oneByte_outOfRange _ hp hn, oneByte_outOfRange _ hp hn, oneByte_outOfRange _ hp hn⟩
  · rw [parseCommand_FRAME, frameLine_count h]
  · refine assembleLine_error_of_mnemonic p hm (by decide) ?_
    rw [parseCommand_FRAME, frameLine_count hlen]
  · rw [parseCommand_FRAME] at h
    exact frameLine_frame_ok h
  · rintro p line hb rfl
    exact assembleLine_of_error p hb (parseCommand_unknown _ hm)

section accepts
variable (p : Params) {line : List Char}

/-- A mnemonic without operands, standing alone. -/
theorem assembleLine_noOperand {l : AsmLine} {m : List Char} (ho : lineOperands line = []) (hm : lineMnemonic line = m)
    (hne : m ≠ []) (hc : parseCommand m [] = .ok l) : assembleLine p line = .ok (l.expand p) :=
  assembleLine_ok_of_mnemonic p hm hne (ho ▸ hc)

/-- A mnemonic with its one number. -/
theorem assembleLine_oneByte {f : Byte → AsmLine} {m l : List Char} {n : Nat} (ho : lineOperands line = [l])
    (hp : parseNumber l = some n) (hn : n < 256) (hm : lineMnemonic line = m) (hne : m ≠ [])
    (hc : parseCommand m [l] = oneByte f [l]) : assembleLine p line = .ok ((f (BitVec.ofNat 8 n)).expand p) := by
  refine assembleLine_ok_of_mnemonic p hm hne ?_
  rw [ho, hc, oneByte_of_lt f hp hn]

theorem assembleLine_frame {ns : List Nat} (hm : lineMnemonic line = "FRAME".toList)
    (hp : (lineOperands line).map parseNumber = ns.map some) (hlen : ns.length = 10) (hn : ∀ n ∈ ns, n < 256) :
    assembleLine p line = .ok ((AsmLine.frame (ns.map (BitVec.ofNat 8))).expand p) := by
  refine assembleLine_ok_of_mnemonic p hm (by decide) ?_
  rw [parseCommand_FRAME, frameLine_of_numbers hp hlen hn]

end accepts

section numbers
variable {n : Nat} (h : n < 256)
include h

theorem toNat_byte_of_lt : (BitVec.ofNat 8 n).toNat = n :=
  (BitVec.toNat_ofNat n 8).trans (Nat.mod_eq_of_lt h)

theorem cmdSample_push_ofNat :
    cmdSample (.push (BitVec.ofNat 8 n)) = { rst := false, cmd := BitVec.ofNat 10 (0x100 + n) } := by
  rw [cmdSample_push, toNat_byte_of_lt h]

theorem cmdSample_req_ofNat :
    cmdSample (.req (BitVec.ofNat 8 n)) = { rst := false, cmd := BitVec.ofNat 10 (0x200 + n) } := by
  rw [cmdSample_req, toNat_byte_of_lt h]

end numbers

theorem expand_frame_ofNat (p : Params) {ns : List Nat} (hn : ∀ n ∈ ns, n < 256) :
    (AsmLine.frame (ns.map (BitVec.ofNat 8))).expand p =
      ns.map (fun n => { rst := false, cmd := BitVec.ofNat 10 (0x100 + n) }) := by
  rw [AsmLine.expand, List.map_map]
  exact List.map_congr_left fun n hmem => cmdSample_push_ofNat (hn n hmem)

/-- Settles O47: each line is its command, and the command's samples are the words of R53 and R54. -/
theorem assemblerAcceptsTheSyntax : Obligations.AssemblerAcceptsTheSyntax := by
  refine fun p line => ⟨fun ho => ⟨fun hm => ?_, fun hm => ?_, fun hm => ?_, fun hm => ?_, fun hm => ?_⟩,
    fun l n ho hp hn => ⟨fun hm => ?_, fun hm => ?_, fun hm => ?_⟩, fun ns hm hp hlen hn => ?_⟩
  · rw [assembleLine_noOperand p ho hm (by decide) (parseCommand_IDLE []), AsmLine.expand, cmdSample_idle]
  · rw [assembleLine_noOperand p ho hm (by decide) (parseCommand_REQ_AUTO []), AsmLine.expand, cmdSample_req]
    rfl
  · rw [assembleLine_noOperand p ho hm (by decide) (parseCommand_REQ_A []), AsmLine.expand, cmdSample_req]
  · rw [assembleLine_noOperand p ho hm (by decide) (parseCommand_REQ_B []), AsmLine.expand, cmdSample_req]
  · rw [assembleLine_noOperand p ho hm (by decide) (parseCommand_RESET []), AsmLine.expand, resetSample]
  · rw [assembleLine_oneByte p ho hp hn hm (by decide) (parseCommand_PUSH [l]), AsmLine.expand, cmdSample_push_ofNat hn]
  · rw [assembleLine_oneByte p ho hp hn hm (by decide) (parseCommand_REQ [l]), AsmLine.expand, cmdSample_req_ofNat hn]
  · rw [assembleLine_oneByte p ho hp hn hm (by decide) (parseCommand_WAIT [l]), AsmLine.expand, toNat_byte_of_lt hn,
      cmdSample_idle]
  · rw [assembleLine_frame p hm hp hlen hn, expand_frame_ofNat p hn]

end Sys2Proof.Machine
end

section
/-!
How the assembler reads a line (spec/30_encoding.md R53): comments, the mnemonic and its operands, decimal and hexadecimal
numbers.
-/

namespace Sys2Proof.Machine

/-- A line counts only by its text. -/
theorem assembleLine_congr (p : Params) {line line' : List Char} (h : lineBody line = lineBody line') :
    assembleLine p line = assembleLine p line' := by
  simp only [assembleLine, parseLine, lineMnemonic, lineOperands, h]

theorem lineBody_comment (line comment : List Char) : lineBody (line ++ ';' :: comment) = lineBody line := by
  rw [lineBody, stripComment_comment, lineBody]

theorem isBlank_eq_false_iff (c : Char) : isBlank c = false ↔ c ≠ ' ' ∧ c ≠ '\t' := by simp [isBlank]

/-- A word alone on its line is a mnemonic without operands. -/
theorem lineMnemonic_word {m : List Char} (hb : ∀ c ∈ m, isBlank c = false) (hs : ';' ∉ m) :
    lineMnemonic m = m ∧ lineOperands m = [] := by
  have hbody : lineBody m = m := by rw [lineBody, stripComment_of_none hs, trimBlanks_word hb]
  have hsolid : ∀ c ∈ m, (!isBlank c) = true := fun c hc => by rw [hb c hc, Bool.not_false]
  rw [lineMnemonic, lineOperands, hbody, List.takeWhile_eq_self_iff.mpr hsolid, List.dropWhile_eq_nil_iff.mpr hsolid]
  exact ⟨rfl, rfl⟩

/-- A text the assembler can read back as one operand: not empty, and without blanks and commas. -/
def IsOperand (l : List Char) : Prop := l ≠ [] ∧ (∀ c ∈ l, isBlank c = false) ∧ ',' ∉ l

/-- Operands one after another, with a comma and a space between them. -/
def joinOperands (ls : List (List Char)) : List Char := List.intercalate [',', ' '] ls

theorem joinOperands_cons (l : List Char) {ls : List (List Char)} (h : ls ≠ []) :
    joinOperands (l :: ls) = l ++ ',' :: ' ' :: joinOperands ls := by
  rw [joinOperands, List.intercalate_cons_of_ne_nil h, List.append_assoc]
  rfl

theorem joinOperands_singleton (l : List Char) : joinOperands [l] = l := List.intercalate_singleton

theorem joinOperands_ne_nil {l : List Char} (h : l ≠ []) (ls : List (List Char)) : joinOperands (l :: ls) ≠ [] := by
  cases ls with
  | nil => rwa [joinOperands_singleton]
  | cons k ls =>
    rw [joinOperands_cons l (List.cons_ne_nil k ls)]
    exact List.append_ne_nil_of_left_ne_nil h _

/-- Operands end in no blank. -/
theorem trimEnd_joinOperands {ls : List (List Char)} (h : ∀ l ∈ ls, IsOperand l) :
    trimEnd (joinOperands ls) = joinOperands ls := by
  induction ls with
  | nil => rfl
  | cons l ls ih =>
    obtain ⟨⟨-, hb, -⟩, hls⟩ := List.forall_mem_cons.mp h
    cases ls with
    | nil => rw [joinOperands_singleton, trimEnd_solid hb]
    | cons k ks =>
      have hne : joinOperands (k :: ks) ≠ [] := joinOperands_ne_nil (hls k List.mem_cons_self).1 ks
      rw [joinOperands_cons l (List.cons_ne_nil k ks), trimEnd_append_solid hb, trimEnd_cons_solid rfl, trimEnd_cons, ih hls,
        if_neg fun e => hne e.1]

/-- Operands begin in no blank either. -/
theorem trimBlanks_joinOperands {l : List Char} {ls : List (List Char)} (h : ∀ k ∈ l :: ls, IsOperand k) :
    trimBlanks (joinOperands (l :: ls)) = joinOperands (l :: ls) := by
  obtain ⟨hne, hb, -⟩ := h l List.mem_cons_self
  obtain ⟨c, w, rfl⟩ := List.exists_cons_of_ne_nil hne
  have hc : isBlank c = false := hb c List.mem_cons_self
  have hjoin : joinOperands ((c :: w) :: ls) = c :: joinOperands (w :: ls) := List.intercalate_cons_cons_left
  rw [hjoin, trimBlanks_solid hc, ← trimEnd_cons_solid hc, ← hjoin, trimEnd_joinOperands h]

theorem splitCommas_ne_nil (l : List Char) : splitCommas l ≠ [] := by
  cases l with
  | nil => exact List.cons_ne_nil _ _
  | cons c l =>
    rw [splitCommas]
    split
    · exact List.cons_ne_nil _ _
    · split <;> exact List.cons_ne_nil _ _

/-- A space before the pieces is trimmed off the first. -/
theorem map_trimBlanks_splitCommas_space (l : List Char) :
    (splitCommas (' ' :: l)).map trimBlanks = (splitCommas l).map trimBlanks := by
  obtain ⟨w, ws, hw⟩ := List.exists_cons_of_ne_nil (splitCommas_ne_nil l)
  have hsplit : splitCommas (' ' :: l) = (' ' :: w) :: ws := by
    rw [splitCommas, if_neg (by decide), hw]
  rw [hsplit, hw, List.map_cons, List.map_cons, trimBlanks_blank rfl]

/-- Cut at the commas and trimmed, the operands are read back. -/
theorem splitCommas_joinOperands {l : List Char} {ls : List (List Char)} (h : ∀ k ∈ l :: ls, IsOperand k) :
    (splitCommas (joinOperands (l :: ls))).map trimBlanks = l :: ls := by
  induction ls generalizing l with
  | nil =>
    obtain ⟨-, hb, hc⟩ := h l List.mem_cons_self
    rw [joinOperands_singleton, splitCommas_none hc, List.map_singleton, trimBlanks_word hb]
  | cons k ks ih =>
    obtain ⟨⟨-, hb, hc⟩, hks⟩ := List.forall_mem_cons.mp h
    rw [joinOperands_cons l (List.cons_ne_nil k ks), splitCommas_append hc, List.map_cons, trimBlanks_word hb,
      map_trimBlanks_splitCommas_space, ih hks]

theorem operandTexts_of_ne_nil {l : List Char} (h : trimBlanks l ≠ []) :
    operandTexts l = (splitCommas (trimBlanks l)).map trimBlanks := by
  obtain ⟨c, cs, hc⟩ := List.exists_cons_of_ne_nil h
  simp only [operandTexts, hc]

theorem operandTexts_joinOperands {ls : List (List Char)} (h : ∀ l ∈ ls, IsOperand l) :
    operandTexts (joinOperands ls) = ls := by
  cases ls with
  | nil => rfl
  | cons l ls =>
    have htrim := trimBlanks_joinOperands h
    have hne : joinOperands (l :: ls) ≠ [] := joinOperands_ne_nil (h l List.mem_cons_self).1 ls
    rw [operandTexts_of_ne_nil (htrim.symm ▸ hne), htrim, splitCommas_joinOperands h]

theorem digitValue_of_isDigit {c : Char} (h : c.isDigit = true) : digitValue 10 c = some (c.toNat - '0'.toNat) := by
  have hr : 48 ≤ c.toNat ∧ c.toNat ≤ 57 := by
    simpa [Char.isDigit, UInt32.le_iff_toNat_le] using h
  have hlt : c.toNat - 48 < 10 := by omega
  dsimp only [digitValue]
  rw [if_pos hr]
  exact if_pos hlt

/-- The decimal digits read are the number the library says they spell. -/
theorem digitsFrom_ten {cs : List Char} (h : ∀ c ∈ cs, c.isDigit = true) (acc : Nat) :
    digitsFrom 10 acc cs = some (Nat.ofDigitChars 10 cs acc) := by
  induction cs generalizing acc with
  | nil => rfl
  | cons c cs ih =>
    obtain ⟨hc, hcs⟩ := List.forall_mem_cons.mp h
    rw [digitsFrom, digitValue_of_isDigit hc, Nat.ofDigitChars_cons]
    exact ih hcs _

/-- Digits never begin with `0x`, so they are read as decimal. -/
theorem parseNumber_of_isDigit {cs : List Char} (hne : cs ≠ []) (h : ∀ c ∈ cs, c.isDigit = true) :
    parseNumber cs = some (Nat.ofDigitChars 10 cs 0) := by
  rw [← digitsFrom_ten h 0]
  unfold parseNumber
  split
  · exact absurd (h 'x' (by simp)) (by decide)
  · rfl
  · exact absurd rfl hne

theorem parseNumber_toDigits (n : Nat) : parseNumber (Nat.toDigits 10 n) = some n := by
  rw [parseNumber_of_isDigit Nat.toDigits_ne_nil fun c hc => Nat.isDigit_of_mem_toDigits (by decide) (by decide) hc,
    Nat.ofDigitChars_ten_toDigits]

/-- The sixteen digits as R53 writes them, each with its value. -/
theorem digitValue_hex {k : Fin 16} {c : Char} (h : "0123456789ABCDEF".toList[k.val]? = some c) :
    digitValue 16 c = some k.val := by
  have hall : ∀ k : Fin 16, ("0123456789ABCDEF".toList[k.val]?).bind (digitValue 16) = some k.val := by decide
  have hk := hall k
  rwa [h] at hk

theorem parseNumber_hex {h l : Nat} {c d : Char} (hc : digitValue 16 c = some h) (hd : digitValue 16 d = some l) :
    parseNumber ['0', 'x', c, d] = some (16 * h + l) := by
  simp [parseNumber, digitsFrom, hc, hd]

/-- Settles O46: a comment and outer blanks are no part of a line's text, the mnemonic ends at the first blank, each operand
at its comma, and a number is read digit by digit. -/
theorem assemblerReadsALine : Obligations.AssemblerReadsALine := by
  refine ⟨fun p line comment => assembleLine_congr p (lineBody_comment line comment),
    fun p line h => assembleLine_of_blank p h, fun m rest hne hm hrest => ?_, fun ls hls => ?_,
    fun n _ => parseNumber_toDigits n, fun h l c d hc hd => parseNumber_hex (digitValue_hex hc) (digitValue_hex hd)⟩
  · have hb : ∀ c ∈ m, isBlank c = false := fun c hc => (isBlank_eq_false_iff c).mpr ⟨(hm c hc).1, (hm c hc).2.1⟩
    have hs : ';' ∉ m := fun hc => (hm ';' hc).2.2 rfl
    have hsrest : ';' ∉ m ++ ' ' :: rest := by simp [hs, hrest]
    obtain ⟨hword, hnone⟩ := lineMnemonic_word hb hs
    exact ⟨hword, hnone, lineMnemonic_append hne hb hsrest⟩
  · refine operandTexts_joinOperands fun l hl => ?_
    obtain ⟨hne, hchars⟩ := hls l hl
    exact ⟨hne, fun c hc => (isBlank_eq_false_iff c).mpr ⟨(hchars c hc).1, (hchars c hc).2.1⟩,
      fun hc => (hchars ',' hc).2.2 rfl⟩

end Sys2Proof.Machine
end

section
/-!
The ingest family (spec/40_ingest.md): IDLE changes no result (R56), PUSH stores and advances (R57, R60), and only the number
of PUSH commands moves the frame boundary (R59, R61).
-/

namespace Sys2Proof.Machine

/-- Settles O13: IDLE only drives the response NONE. -/
theorem idleChangesNothing : Obligations.IdleChangesNothing :=
  fun _ s => ⟨quiet s, rfl, fun _ => rfl, rfl, rfl, rfl, rfl, rfl⟩

/-! ### IDLE steps in a stream -/

/-- A stream an integrator may issue runs to its end. -/
theorem exists_feed_of_legalStream (s : State) {xs : List PortSample} (h : LegalStream xs) : ∃ t, feed s xs = .next t := by
  induction xs generalizing s with
  | nil => exact ⟨s, rfl⟩
  | cons x xs ih =>
    obtain ⟨hx, hxs⟩ := List.forall_mem_cons.mp h
    rw [feed_cons_next xs (step_of_legal (s := s.drive x) hx)]
    exact ih _ hxs

/-- A run that is not refused drives one response a step. -/
theorem responses_length {s t : State} {xs : List PortSample} (h : feed s xs = .next t) :
    (responses s xs).length = xs.length := by
  induction xs generalizing s with
  | nil => rfl
  | cons x xs ih =>
    obtain ⟨u, hu, hf⟩ := feed_cons_inv h
    rw [responses_cons_next xs hu, List.length_cons, ih hf, List.length_cons]

/-- The response held when a step begins is not read by it. -/
theorem step_drive_respond (s : State) (r : Response) (x : PortSample) :
    step ((s.respond r).drive x) = step (s.drive x) :=
  step_withRsp (s.drive x) r

theorem responses_respond (s : State) (r : Response) (ys : List PortSample) :
    responses (s.respond r) ys = responses s ys := by
  cases ys with
  | nil => rfl
  | cons y ys => simp only [responses, step_drive_respond]

/-- Past its first step a run has forgotten the response held at its start; before it, only the port differs. -/
theorem feed_respond {s t : State} (r : Response) {ys : List PortSample} (h : feed s ys = .next t) :
    ∃ u, feed (s.respond r) ys = .next u ∧ SameArch u t := by
  cases ys with
  | nil => cases h; exact ⟨s.respond r, rfl, rfl, rfl, rfl, rfl⟩
  | cons y ys =>
    obtain ⟨v, hv, hf⟩ := feed_cons_inv h
    exact ⟨t, (feed_cons_next ys ((step_drive_respond s r y).trans hv)).trans hf, rfl, rfl, rfl, rfl⟩

theorem step_drive_idle (s : State) {z : PortSample} (hr : z.rst = false) (hop : opField z.cmd = 0b00#2) :
    step (s.drive z) = .next (quiet s) := by
  rw [step_drive_cmd s hr, decode_idle hop, exec_idle]

/-- A run of IDLE steps drives NONE throughout and touches nothing but the response port. -/
theorem feed_idles (s : State) {zs : List PortSample} (h : ∀ z ∈ zs, z.rst = false ∧ opField z.cmd = 0b00#2) :
    (∃ r, feed s zs = .next (s.respond r)) ∧
      responses s zs = List.replicate zs.length (Response.empty .none) := by
  induction zs generalizing s with
  | nil => exact ⟨⟨s.rsp, rfl⟩, rfl⟩
  | cons z zs ih =>
    obtain ⟨⟨hr, hop⟩, hzs⟩ := List.forall_mem_cons.mp h
    have hz : step (s.drive z) = .next (quiet s) := step_drive_idle s hr hop
    obtain ⟨⟨r, hf⟩, hrsp⟩ := ih (quiet s) hzs
    refine ⟨⟨r, (feed_cons_next zs hz).trans hf⟩, ?_⟩
    rw [responses_cons_next zs hz, hrsp, quiet_rsp, List.length_cons, List.replicate_succ]

/-- Settles O14: the IDLE steps leave the state as it was but for the response held, which no later step reads. -/
theorem idleStepsChangeNoResult : Obligations.IdleStepsChangeNoResult := by
  intro s xs zs ys hxs hzs
  obtain ⟨v, hv⟩ := exists_feed_of_legalStream s hxs
  obtain ⟨⟨r, hidle⟩, hnone⟩ := feed_idles v hzs
  rw [List.append_assoc, responses_append _ hv, responses_append _ hv, responses_append _ hidle, hnone,
    responses_respond, feed_append _ hv, feed_append _ hv, feed_append _ hidle, ← responses_length hv, List.drop_left,
    List.append_assoc]
  exact ⟨rfl, fun t => feed_respond r⟩

/-! ### PUSH -/

/-- The data byte is the low byte of the word. -/
theorem dataField_eq_setWidth (w : CmdWord) : dataField w = w.setWidth 8 :=
  (BitVec.setWidth_eq_extractLsb' (by decide)).symm

/-- The words of PUSH as its row of spec/opcode_table.json selects them. -/
theorem decode_of_pushMatch {w : CmdWord} (h : w &&& 0x300#10 = 0x100#10) : decode w = .push (w.setWidth 8) := by
  have hop : (decode w).op = (Instr.push 0#8).op := (opcodeRowsPartitionTheWords.1 w (.push 0#8)).mp h
  rw [decode_op] at hop
  rw [decode_push hop, dataField_eq_setWidth]

/-- Settles O15: each register of the state after PUSH is read off its law, the words are those of PUSH's table row, and
without reset the counter does not return to 0. -/
theorem pushStoresByteAndAdvances : Obligations.PushStoresByteAndAdvances := by
  refine ⟨fun b s => ⟨pushByte b s, rfl, pushIndex_val_eq_ite s.cnt, ?_, fun k hk => ?_, ?_, rfl, rfl, rfl, rfl,
    fun h9 => ?_, fun h10 => ?_⟩, fun w => decode_of_pushMatch, fun s t h0 hr h => step_cnt_ne_zero h hr h0⟩
  · rw [pushByte_frame, Memory.read_write_same]
  · rw [pushByte_frame, Memory.read_write_other _ _ hk]
  · rw [pushByte_cnt, cntAfterPush_val, pushIndex_val_eq_ite]
  · rw [ready_iff, pushByte_cnt, cntAfterPush_eq_ten_iff, h9]
  · have hne : ¬ (pushByte b s).ready = true := by
      rw [ready_iff, pushByte_cnt, cntAfterPush_eq_ten_iff, h10]
      decide
    exact Bool.eq_false_of_not_eq_true hne

/-! ### The frame boundary -/

theorem pushIndex_cntAfterPush (c : Fin 11) : (pushIndex (cntAfterPush c)).val = ((pushIndex c).val + 1) % 10 := by
  rw [pushIndex_val (cntAfterPush c), cntAfterPush_val]

/-- Without reset the pointer moves by the bytes delivered and by nothing else. -/
theorem feed_pushIndex {s t : State} {xs : List PortSample} (hx : NoReset xs) (h : feed s xs = .next t) :
    (pushIndex t.cnt).val = ((pushIndex s.cnt).val + (pushedBytes xs).length) % 10 := by
  induction xs generalizing s with
  | nil => cases h; exact (Nat.mod_eq_of_lt (pushIndex _).isLt).symm
  | cons x xs ih =>
    obtain ⟨u, hu, hf⟩ := feed_cons_inv h
    obtain ⟨hr, hxs⟩ := List.forall_mem_cons.mp hx
    rcases step_store_cases hu with ⟨hr', -, -⟩ | ⟨b, -, hd, -, hcnt⟩ | ⟨-, hp, -, hcnt⟩
    · exact absurd (hr.symm.trans hr') (by decide)
    · rw [ih hxs hf, hcnt, pushIndex_cntAfterPush, pushedBytes_cons_some xs (pushedByte_push hr hd), List.length_cons,
        State.drive_cnt]
      omega
    · rw [ih hxs hf, hcnt, pushedBytes_cons_none xs ((pushedByte_eq_none_iff hr).mpr hp), State.drive_cnt]

/-- Settles O20: both runs move their pointers by the same number of bytes, so their distance stays. -/
theorem frameBoundaryMovesOnlyByPushes : Obligations.FrameBoundaryMovesOnlyByPushes := by
  refine ⟨fun s t xs => feed_pushIndex, fun s s' t t' d xs hx h h' hd => ?_⟩
  rw [feed_pushIndex hx h, feed_pushIndex hx h', hd]
  omega

/-- Off 0, the counter is ready exactly when the pointer of PUSH has wrapped. -/
theorem cnt_eq_ten_iff_pushIndex {c : Fin 11} (h0 : c ≠ 0) : c = 10 ↔ (pushIndex c).val = 0 := by
  have hv : c.val ≠ 0 := fun e => h0 (Fin.ext e)
  rw [cnt_val_eq_ten, pushIndex_val]
  omega

/-- Settles O21: the pointer stands at 1 after the PUSH and wraps with the ninth byte more, not before. -/
theorem nextByteOpensTheRefillWindow : Obligations.NextByteOpensTheRefillWindow := by
  intro s b hs
  have hidx : pushIndex s.cnt = 0 := by rw [hs]; rfl
  have hone : (pushByte b s).cnt = 1 := by rw [pushByte_cnt, hs]; rfl
  refine ⟨pushByte b s, rfl, hone, by rw [pushByte_frame, hidx, Memory.read_write_same], fun xs u hx h => ?_⟩
  have hptr : (pushIndex u.cnt).val = (1 + (pushedBytes xs).length) % 10 := by
    have hrun := feed_pushIndex hx h
    rwa [hone] at hrun
  have hu0 : u.cnt ≠ 0 := feed_cnt_ne_zero (by rw [hone]; decide) hx h
  refine ⟨fun hlt q => ⟨_, rfl, ?_⟩, fun h9 => ?_⟩
  · have hne : u.cnt ≠ 10 := by
      rw [ne_eq, cnt_eq_ten_iff_pushIndex hu0]
      omega
    rw [request_notReady _ _ _ hne, State.respond_rsp, Response.empty_status]
  · rw [ready_iff, cnt_eq_ten_iff_pushIndex hu0, hptr, h9]

end Sys2Proof.Machine
end

section
/-!
REQ in one step (spec/41_synthesis.md): the gate (R63), the two layouts (R65, R66), an unrecognized identifier (R67), the
indicator (R68), and the frame it only reads (R69).
-/

namespace Sys2Proof.Machine

/-- Settles O22: the gate stops the request before anything is resolved, so only the response is driven. -/
theorem requestNotReadyChangesNothing : Obligations.RequestNotReadyChangesNothing := by
  intro q s hc
  refine ⟨s.respond (Response.empty .notReady), ?_, rfl, fun _ => rfl, rfl, rfl, rfl, rfl⟩
  rw [exec_req, request_notReady _ _ _ hc]

/-- The payload of layout A ends with its second byte (41_synthesis.md R65). -/
theorem layoutA_getElem_of_two_le (m : Memory) {j : Fin 7} (hj : 2 ≤ j.val) : (layoutA m)[j] = 0#8 := by
  rw [layoutA_getElem, if_neg (by omega), if_neg (by omega)]

/-- Settles O24: the state is the one the law of a request for layout A names. -/
theorem requestReportsSimplePad : Obligations.RequestReportsSimplePad := by
  intro q s hc hid
  refine ⟨((s.setLastId Config.params.idA).setLed false).respond (reportA Config.params s.frame), ?_, rfl, rfl, rfl, rfl, rfl,
    fun j hj => layoutA_getElem_of_two_le s.frame hj, rfl, rfl, rfl, rfl, fun _ => rfl⟩
  rw [exec_req, request_A _ _ _ hc hid]

/-- Settles O25: the state is the one the law of a request for layout B names, and that law holds of every legal
parameters. -/
theorem requestReportsDualStick : Obligations.RequestReportsDualStick := by
  refine ⟨fun q s hc hid => ?_, fun p q s hc hid => ?_⟩
  · refine ⟨((s.setLastId Config.params.idB).setLed false).respond (reportB Config.params s.frame), ?_, rfl, rfl, rfl, rfl,
      rfl, rfl, rfl, rfl, rfl, rfl, rfl, rfl, rfl, rfl, fun _ => rfl⟩
    rw [exec_req, request_B _ _ _ hc hid]
  · rw [request_B p q s hc hid]
    rfl

/-- Only a requested identifier can resolve to neither layout: an automatic one is `ID_A` or `ID_B`. -/
theorem resolveId_of_unrecognized {p : Params} {q last : Byte} (hA : resolveId p q last ≠ p.idA)
    (hB : resolveId p q last ≠ p.idB) : resolveId p q last = q := by
  rcases resolveId_cases p q last with ⟨-, -, e⟩ | ⟨-, -, e⟩ | ⟨-, e⟩
  · exact absurd e hB
  · exact absurd e hA
  · exact e

/-- Settles O26: the identifier recorded is the requested one, and nothing else moves. -/
theorem requestUnrecognizedIdentifier : Obligations.RequestUnrecognizedIdentifier := by
  intro q s hc hA hB
  refine ⟨(s.setLastId q).respond (Response.empty .unrecognized), ?_, rfl, rfl, rfl, rfl, rfl, fun _ => rfl⟩
  rw [exec_req, request_unrecognized _ _ _ hc hA hB, resolveId_of_unrecognized hA hB]

/-- Settles O27: one answer for each case of a request. -/
theorem requestClearsIndicatorOnlyOnOk : Obligations.RequestClearsIndicatorOnlyOnOk := by
  intro q s
  refine ⟨request Config.params q s, rfl, ?_⟩
  rcases request_cases Config.params q s with ⟨-, e⟩ | ⟨-, -, e⟩ | ⟨-, -, e⟩ | ⟨-, -, -, e⟩ <;> rw [e] <;> simp

/-- Without reset and without a byte a run leaves the frame store and the counter as they were (41_synthesis.md R69). -/
theorem feed_noPush {s t : State} {xs : List PortSample} (hr : NoReset xs) (hp : NoPush xs) (h : feed s xs = .next t) :
    t.frame = s.frame ∧ t.cnt = s.cnt := by
  refine feed_induction (P := fun u => u.frame = s.frame ∧ u.cnt = s.cnt)
    (Q := fun x => x.rst = false ∧ pushedByte x = none) ?_ ⟨rfl, rfl⟩ (fun x hx => ⟨hr x hx, hp x hx⟩) h
  rintro u x v ⟨hf, hc⟩ ⟨hxr, hxp⟩ hs
  obtain ⟨hvf, hvc⟩ := step_not_push hs hxr ((pushedByte_eq_none_iff hxr).mp hxp)
  exact ⟨hvf.trans hf, hvc.trans hc⟩

/-- Settles O28: REQ writes neither, and no other command but PUSH does. -/
theorem requestDoesNotConsumeTheFrame : Obligations.RequestDoesNotConsumeTheFrame := by
  refine ⟨fun q s => ⟨request Config.params q s, rfl, fun k => ?_, request_cnt _ _ _⟩, fun s t xs hs hr hp h => ?_⟩
  · rw [request_frame]
  · obtain ⟨hf, hc⟩ := feed_noPush hr hp h
    exact ⟨(ready_iff t).mpr (hc.trans hs), fun k => by rw [hf]⟩

end Sys2Proof.Machine
end

section
/-!
The last-identifier state machine (spec/41_synthesis.md R64): what one step does to `last_id` and to the identifier it
answers, the alternation of automatic requests (R70), and the explicit identifier that steers the next one (R71).
-/

namespace Sys2Proof.Machine

/-- What a ready request answers, with the identifier it has resolved and recorded (41_synthesis.md R64 to R67). -/
theorem request_ready_cases (p : Params) (q : Byte) {s : State} (hc : s.cnt = 10) :
    ((request p q s).rsp.status = .ok ∧ (request p q s).rsp.id = resolveId p q s.lastId) ∨
    ((request p q s).rsp.status = .unrecognized ∧ resolveId p q s.lastId ≠ p.idA ∧ resolveId p q s.lastId ≠ p.idB) := by
  rcases request_cases p q s with ⟨hn, -⟩ | ⟨-, hid, e⟩ | ⟨-, hid, e⟩ | ⟨-, hA, hB, e⟩
  · exact absurd hc hn
  · exact .inl ⟨by rw [e]; rfl, by rw [e, hid]; rfl⟩
  · exact .inl ⟨by rw [e]; rfl, by rw [e, hid]; rfl⟩
  · exact .inr ⟨by rw [e]; rfl, hA, hB⟩

/-- A step without reset leaves `last_id`, with NONE or NOT_READY, or it is a ready REQ and records the identifier it
resolves, with OK or UNRECOGNIZED. -/
theorem step_lastId_cases {s t : State} (h : step s = .next t) (hr : s.presented.rst = false) :
    (t.lastId = s.lastId ∧ (t.rsp.status = .none ∨ t.rsp.status = .notReady)) ∨
    (s.cnt = 10 ∧ ∃ q, decode s.presented.cmd = .req q ∧ t.lastId = resolveId Config.params q s.lastId ∧
      ((t.rsp.status = .ok ∧ t.rsp.id = t.lastId) ∨
        (t.rsp.status = .unrecognized ∧ t.lastId ≠ Config.params.idA ∧ t.lastId ≠ Config.params.idB))) := by
  rcases step_next_cases h with ⟨hr', -⟩ | ⟨d, -, -, rfl⟩ | ⟨b, -, -, rfl⟩ | ⟨q, -, hd, rfl⟩
  · simp [hr] at hr'
  · exact .inl ⟨rfl, .inl rfl⟩
  · exact .inl ⟨rfl, .inl rfl⟩
  · by_cases hc : s.cnt = 10
    · have hid : (request Config.params q s.popInput).lastId = resolveId Config.params q s.lastId :=
        request_lastId Config.params q s.popInput hc
      exact .inr ⟨hc, q, hd, hid, hid ▸ request_ready_cases Config.params q (s := s.popInput) hc⟩
    · rw [request_notReady Config.params q s.popInput hc]
      exact .inl ⟨rfl, .inr rfl⟩

/-- Settles O23: only a ready REQ moves the register without reset, and what it resolves is never 0. -/
theorem lastIdentifierStateMachine : Obligations.LastIdentifierStateMachine := by
  refine ⟨fun q s hc => ⟨_, rfl, request_lastId Config.params q s hc⟩, fun s t h hne => ?_, fun s t h hr h0 => ?_,
    resolveId_ne_zero⟩
  · cases hr : s.presented.rst with
    | true => exact .inl rfl
    | false =>
      rcases step_lastId_cases h hr with ⟨hid, -⟩ | ⟨hc, q, hd, -⟩
      · exact absurd hid hne
      · exact .inr ⟨hc, q, hd⟩
  · rcases step_lastId_cases h hr with ⟨hid, -⟩ | ⟨-, q, -, hid, -⟩
    · exact hid ▸ h0
    · exact absurd (hid ▸ h0) (resolveId_ne_zero _ _ _)

/-! ### Automatic requests -/

/-- Identifier resolution of a request that supplies none (41_synthesis.md R64). -/
theorem resolveId_zero (p : Params) (last : Byte) :
    resolveId p 0#8 last = if last = p.idA then p.idB else p.idA := if_pos rfl

/-- A ready automatic request reports the layout whose turn it is. -/
theorem request_zero_ok (p : Params) {s : State} (hc : s.cnt = 10) :
    (request p 0#8 s).rsp.status = .ok ∧ (request p 0#8 s).rsp.id = resolveId p 0#8 s.lastId := by
  rcases request_ready_cases p 0#8 hc with hok | ⟨-, hA, hB⟩
  · exact hok
  · exact absurd (resolveId_of_unrecognized hA hB) (resolveId_ne_zero p 0#8 s.lastId)

/-- The identifier of the `k`-th automatic report, counted from 0, of a block whose `last_id` is `last` (41_synthesis.md
R70). -/
def autoId (p : Params) (last : Byte) (k : Nat) : Byte :=
  if last = p.idA then (if k % 2 = 0 then p.idB else p.idA) else (if k % 2 = 0 then p.idA else p.idB)

theorem autoId_first (p : Params) (last : Byte) : autoId p last 0 = resolveId p 0#8 last :=
  (resolveId_zero p last).symm

/-- The reports after the first are those of the block that has recorded the first. -/
theorem autoId_succ (p : Params) (last : Byte) (k : Nat) :
    autoId p last (k + 1) = autoId p (resolveId p 0#8 last) k := by
  obtain ⟨-, -, hAB⟩ := Params.legal p
  rw [resolveId_zero]
  have hparity : (k + 1) % 2 = 0 ↔ ¬ k % 2 = 0 := by omega
  by_cases hA : last = p.idA
  · simp only [autoId, hA, if_true, hAB.symm, if_false, hparity, ite_not]
  · simp only [autoId, hA, if_true, if_false, hparity, ite_not]

theorem map_autoId_range_succ (p : Params) (last : Byte) (n : Nat) :
    (List.range (n + 1)).map (autoId p last) =
      resolveId p 0#8 last :: (List.range n).map (autoId p (resolveId p 0#8 last)) := by
  simp only [List.range_succ_eq_map, List.map_cons, List.map_map, autoId_first, Function.comp_def, Nat.succ_eq_add_one,
    autoId_succ]

section emitted
variable {s t : State} {x : PortSample} (xs : List PortSample)

/-- A step that answers OK emits its identifier before those of the rest of the run. -/
theorem emittedIds_cons_ok (h : step (s.drive x) = .next t) (hok : t.rsp.status = .ok) :
    emittedIds s (x :: xs) = t.rsp.id :: emittedIds t xs := by
  simp [emittedIds, responses_cons_next xs h, hok]

/-- A step that answers anything else emits nothing. -/
theorem emittedIds_cons_not_ok (h : step (s.drive x) = .next t) (hok : t.rsp.status ≠ .ok) :
    emittedIds s (x :: xs) = emittedIds t xs := by
  simp [emittedIds, responses_cons_next xs h, hok]

/-- A refused step ends the run. -/
theorem emittedIds_cons_refused {r : Refusal} (h : step (s.drive x) = .refused r) : emittedIds s (x :: xs) = [] := by
  simp [emittedIds, responses_cons_refused xs h]

end emitted

/-- What a step whose REQ supplies no identifier does to `last_id`: nothing while it emits nothing, else it records the
identifier it emits, which is the next in turn. -/
theorem step_drive_auto_cases {s t : State} {x : PortSample} (h : step (s.drive x) = .next t) (hr : x.rst = false)
    (hx : ∀ q, decode x.cmd = .req q → q = 0#8) :
    (t.rsp.status ≠ .ok ∧ t.lastId = s.lastId) ∨
    (t.rsp.status = .ok ∧ t.rsp.id = resolveId Config.params 0#8 s.lastId ∧
      t.lastId = resolveId Config.params 0#8 s.lastId) := by
  rcases step_lastId_cases h hr with ⟨hid, hst⟩ | ⟨-, q, hd, hid, hrsp⟩
  · exact .inl ⟨by rcases hst with e | e <;> simp [e], hid⟩
  · obtain rfl : q = 0#8 := hx q hd
    rcases hrsp with ⟨hok, hrid⟩ | ⟨-, hA, hB⟩
    · exact .inr ⟨hok, hrid.trans hid, hid⟩
    · rw [hid] at hA hB
      exact absurd (resolveId_of_unrecognized hA hB) (resolveId_ne_zero _ _ _)

/-- The identifiers a run of automatic requests emits are the alternating ones, from whichever is in turn. -/
theorem emittedIds_auto (s : State) {xs : List PortSample} (hr : NoReset xs)
    (hx : ∀ x ∈ xs, ∀ q, decode x.cmd = .req q → q = 0#8) :
    emittedIds s xs = (List.range (emittedIds s xs).length).map (autoId Config.params s.lastId) := by
  induction xs generalizing s with
  | nil => rfl
  | cons x xs ih =>
    obtain ⟨hxr, hxsr⟩ := List.forall_mem_cons.mp hr
    obtain ⟨hx0, hxs0⟩ := List.forall_mem_cons.mp hx
    cases h : step (s.drive x) with
    | next t =>
      have hrest := ih t hxsr hxs0
      rcases step_drive_auto_cases h hxr hx0 with ⟨hok, hid⟩ | ⟨hok, hrid, hid⟩
      · rw [emittedIds_cons_not_ok xs h hok, ← hid]
        exact hrest
      · rw [emittedIds_cons_ok xs h hok, List.length_cons, map_autoId_range_succ, hrid, ← hid, ← hrest]
    | fault r => cases r
    | refused r => rw [emittedIds_cons_refused xs h]; rfl

/-- Settles O29: the alternation is that of the whole run, and after reset `last_id` is not `ID_A`. -/
theorem automaticRequestsAlternate : Obligations.AutomaticRequestsAlternate := by
  refine ⟨fun s xs hr hx => emittedIds_auto s hr hx, fun xs hr hx id hid => ?_⟩
  have halt := emittedIds_auto State.reset hr hx
  have hA : State.reset.lastId ≠ Config.params.idA := (Params.legal Config.params).1.symm
  cases hn : (emittedIds State.reset xs).length with
  | zero => simp [List.length_eq_zero_iff.mp hn] at hid
  | succ n =>
    rw [hn, map_autoId_range_succ, resolveId_zero_other _ hA] at halt
    rw [halt] at hid
    exact (Option.some.inj hid).symm

/-! ### An explicit identifier -/

/-- A run without reset in which no ready request is answered leaves `last_id` as it was. -/
theorem feed_lastId_of_unanswered {s t : State} {xs : List PortSample} (hr : NoReset xs)
    (hrsp : ∀ r ∈ responses s xs, r.status = .none ∨ r.status = .notReady) (h : feed s xs = .next t) :
    t.lastId = s.lastId := by
  induction xs generalizing s with
  | nil => cases h; rfl
  | cons x xs ih =>
    obtain ⟨u, hu, hf⟩ := feed_cons_inv h
    obtain ⟨hxr, hxsr⟩ := List.forall_mem_cons.mp hr
    rw [responses_cons_next xs hu] at hrsp
    obtain ⟨hst, hrest⟩ := List.forall_mem_cons.mp hrsp
    have hid : u.lastId = s.lastId := by
      rcases step_lastId_cases hu hxr with ⟨hid, -⟩ | ⟨-, q, -, -, ⟨hok, -⟩ | ⟨hun, -⟩⟩
      · exact hid
      · simp [hok] at hst
      · simp [hun] at hst
    exact (ih hxsr hrest hf).trans hid

/-- Settles O30: the identifier the request recorded is still in `last_id` when the next automatic one resolves. -/
theorem explicitIdentifierSteersTheNext : Obligations.ExplicitIdentifierSteersTheNext := by
  intro s q hc
  refine ⟨request Config.params q s, rfl, fun xs u hr hrsp h hu => ⟨request Config.params 0#8 u, rfl, ?_⟩⟩
  have hlast : u.lastId = resolveId Config.params q s.lastId :=
    (feed_lastId_of_unanswered hr hrsp h).trans (request_lastId _ _ _ hc)
  obtain ⟨hok, hid⟩ := request_zero_ok Config.params hu
  exact ⟨hok, by rw [hid, hlast, resolveId_zero]⟩

end Sys2Proof.Machine
end

section
/-!
The axis normalizer (spec/42_stick_normalizer.md): its centring step on bits (R74), its range (R77), and its preimages under
either reading of the inner band (R78).
-/

namespace Sys2Proof.Machine

/-! ### Preimages and monotonicity -/

/-- Where the inner band passes through, an output comes from that band, from the upper or from the lower one. -/
theorem norm_false_eq_iff (raw : Byte) (v : Int) : norm false raw = v ↔
    ((raw.toNat : Int) = 128 + v ∧ -27 ≤ v ∧ v ≤ 27) ∨ ((raw.toNat : Int) = 156 + v ∧ 0 ≤ v ∧ v ≤ 99) ∨
    ((raw.toNat : Int) = 100 + v ∧ -100 ≤ v ∧ v ≤ 0) := by
  have hlt : raw.toNat < 256 := raw.isLt
  rcases norm_cases false raw with ⟨hr, hn⟩ | ⟨hr, hn⟩ | ⟨hr1, hr2, hn⟩
  · rw [hn]; omega
  · rw [hn]; omega
  · rw [hn, if_neg Bool.false_ne_true]; omega

/-- With the inner band at 0, NORM is the excess over raw 156 plus the deficit under raw 100; both grow with the input. -/
theorem norm_true_eq (raw : Byte) : norm true raw = max ((raw.toNat : Int) - 156) 0 + min ((raw.toNat : Int) - 100) 0 := by
  rcases norm_cases true raw with ⟨hr, hn⟩ | ⟨hr, hn⟩ | ⟨hr1, hr2, hn⟩
  · rw [hn]; omega
  · rw [hn]; omega
  · rw [hn, if_pos rfl]; omega

theorem norm_true_eq_iff (raw : Byte) (v : Int) : norm true raw = v ↔
    (v = 0 ∧ 100 ≤ raw.toNat ∧ raw.toNat ≤ 156) ∨ ((raw.toNat : Int) = 156 + v ∧ 1 ≤ v ∧ v ≤ 99) ∨
    ((raw.toNat : Int) = 100 + v ∧ -100 ≤ v ∧ v ≤ -1) := by
  have hlt : raw.toNat < 256 := raw.isLt
  rw [norm_true_eq]
  omega

theorem norm_true_mono {a b : Byte} (h : a.toNat ≤ b.toNat) : norm true a ≤ norm true b := by
  rw [norm_true_eq, norm_true_eq]
  gcongr

/-- Settles O35: the preimages band by band; the two drops are at the thresholds, from 155 to 156 and from 100 to 101. -/
theorem normPreimages : Obligations.NormPreimages := by
  refine ⟨norm_false_eq_iff, norm_true_eq_iff, fun _ _ => norm_true_mono, ?_, ?_⟩
  · decide
  · decide

/-! ### Steps and range -/

/-- Both readings keep the inner band between the thresholds (42_stick_normalizer.md R76). -/
theorem norm_inner_bounds (dz : Bool) {raw : Byte} (h1 : 101 ≤ raw.toNat) (h2 : raw.toNat ≤ 155) :
    -27 ≤ norm dz raw ∧ norm dz raw ≤ 27 := by
  rw [norm_inner dz h1 h2]
  split <;> omega

theorem norm_bounds (dz : Bool) (raw : Byte) : -100 ≤ norm dz raw ∧ norm dz raw ≤ 99 := by
  have hlt : raw.toNat < 256 := raw.isLt
  rcases norm_cases dz raw with ⟨hr, hn⟩ | ⟨hr, hn⟩ | ⟨hr1, hr2, -⟩
  · omega
  · omega
  · obtain ⟨hlo, hhi⟩ := norm_inner_bounds dz hr1 hr2
    omega

/-- Step 3 loses nothing: the payload byte of an axis reads back as the result (42_stick_normalizer.md R73). -/
theorem intS8_axisByte (dz : Bool) (raw : Byte) : intS8 (axisByte dz raw) = norm dz raw := by
  obtain ⟨hlo, hhi⟩ := norm_bounds dz raw
  exact intS8_s8 (by omega) (by omega)

/-- Settles O32: step 2's conditions on `raw - 128` are the three bands of `raw`. -/
theorem normFollowsItsSteps : Obligations.NormFollowsItsSteps := by
  refine ⟨fun dz raw => ⟨fun h => ?_, fun h => ?_, fun h1 h2 => ?_, intS8_axisByte dz raw⟩, ?_⟩
  · rw [norm_upper dz (by omega)]; omega
  · rw [norm_lower dz (by omega)]; omega
  · exact norm_inner dz (by omega) (by omega)
  · decide

/-- Settles O33: the sign of a result follows from its band, and the extreme bytes are those of raw 0 and raw 255. -/
theorem normRange : Obligations.NormRange := by
  refine ⟨fun dz raw => ?_, by decide⟩
  obtain ⟨hlo, hhi⟩ := norm_bounds dz raw
  refine ⟨hlo, hhi, fun h => ?_, fun h => ?_, fun h1 h2 => norm_inner_bounds dz h1 h2⟩
  · rw [norm_upper dz h]; omega
  · rw [norm_lower dz h]; omega

/-! ### Centring -/

/-- Flipping the top bit of a byte keeps its low seven bits and swaps its two halves. -/
theorem toNat_xor_signBit (b : Byte) :
    (b ^^^ 0x80#8).toNat = if b.toNat < 128 then b.toNat + 128 else b.toNat - 128 := by
  have hlt : b.toNat < 256 := b.isLt
  have hlow : (b.toNat ^^^ 128) % 128 = b.toNat % 128 :=
    (Nat.xor_mod_two_pow (n := 7)).trans (Nat.xor_zero _)
  have htop : (b.toNat ^^^ 128) / 128 = b.toNat / 128 ^^^ 1 := Nat.xor_div_two_pow (n := 7)
  have hxor : (b ^^^ 0x80#8).toNat = b.toNat ^^^ 128 := BitVec.toNat_xor ..
  rw [hxor]
  by_cases h : b.toNat < 128
  · rw [Nat.div_eq_of_lt h, Nat.zero_xor] at htop
    rw [if_pos h]; omega
  · have hb : b.toNat / 128 = 1 := by omega
    rw [hb, Nat.xor_self] at htop
    rw [if_neg h]; omega

/-- Settles O34: the lower half of the inputs gets the sign bit and reads negative, the upper half loses it. -/
theorem normCentringIsExact : Obligations.NormCentringIsExact := by
  intro raw
  have hlt : raw.toNat < 256 := raw.isLt
  rw [intS8, BitVec.toInt_eq_toNat_cond, toNat_xor_signBit]
  by_cases h : raw.toNat < 128
  · rw [if_pos h]; split <;> omega
  · rw [if_neg h]; split <;> omega

end Sys2Proof.Machine
end

section
/-!
No error stops the block (spec/60_exceptions.md R81): a legal sample is processed from every state, whatever response the
step before it drove.
-/

namespace Sys2Proof.Machine

/-- No state can keep the block from processing a legal sample. -/
theorem exists_step_drive_of_legal (s : State) {x : PortSample} (h : x.legal = true) : ∃ t, step (s.drive x) = .next t :=
  ⟨_, step_of_legal (s := s.drive x) h⟩

/-- Settles O39: a legal sample is processed from every state, so a legal stream runs to its end, and so does the sample
after any step, whether or not that step answered an error. -/
theorem noErrorStopsTheBlock : Obligations.NoErrorStopsTheBlock :=
  ⟨fun s _ hxs => exists_feed_of_legalStream s hxs, fun _ t _ _ _ hy _ => exists_step_drive_of_legal t hy⟩

end Sys2Proof.Machine
end

section
/-!
Reset and hazards (spec/70_reset_and_hazards.md): what reset leaves in the registers (10_state.md R27), and what a block
answers whose sender stalls (R96).
-/

namespace Sys2Proof.Machine

/-- Settles O3: the frame store lists no byte, so each reads as at reset, and every register holds its reset value. -/
theorem resetStateHoldsSpecValues : Obligations.ResetStateHoldsSpecValues :=
  ⟨Memory.read_nil, State.reset_cnt, State.reset_lastId, State.reset_led, rfl, rfl, State.reset_inputs⟩

/-- The invariant does not speak of the sample the integrator drives. -/
theorem drive_inv (x : PortSample) {s : State} (h : s.Inv) : (s.drive x).Inv := by
  obtain ⟨hw, h0, hl, hr, hok, hun, hnr⟩ := h
  exact ⟨hw, h0, hl, hr, hok, hun, hnr⟩

theorem feed_inv {s t : State} {xs : List PortSample} (hs : s.Inv) (h : feed s xs = .next t) : t.Inv :=
  feed_induction (Q := fun _ => True) (fun _ x _ hu _ hx => step_inv (drive_inv x hu) hx) hs (fun _ _ => trivial) h

/-- Settles O31: a stall leaves the frame store and the counter as they were, so a REQ finds the same frame, ready or not; in
mid-frame the invariant lets nothing but a report turn the indicator off, and only a ready frame gives one. -/
theorem stalledSender : Obligations.StalledSender := by
  intro s t xs hs hr hp h
  obtain ⟨hframe, hcnt⟩ := feed_noPush hr hp h
  refine ⟨fun hc q => ⟨_, exec_req q t, ?_⟩, fun hc h0 => ?_, fun hc q => ⟨_, exec_req q t, fun hid => ?_, fun hid => ?_, ?_⟩⟩
  · simp [request_notReady _ q t (hcnt ▸ hc)]
  · by_contra hled
    rcases (feed_inv hs h).led_off (Bool.eq_false_iff.mpr hled) with ht | ht
    · exact h0 (hcnt ▸ ht)
    · exact hc (hcnt ▸ ht)
  · simp [request_A _ q t (hcnt.trans hc) hid, hframe]
  · simp [request_B _ q t (hcnt.trans hc) hid, hframe]
  · rintro rfl
    exact (request_zero_ok _ (hcnt.trans hc)).1

end Sys2Proof.Machine
end

section
/-!
Which operation a step runs, by the sample on the ports: the decoded command, reset (spec/70_reset_and_hazards.md R89), and
the word of a table row (log entries 2, 3 and 13); and the invariant at the launch state.
-/

namespace Sys2Proof.Machine

theorem popInput_cons {s : State} {x : PortSample} {rest : List PortSample} (h : s.inputs = x :: rest) :
    s.popInput = { s with inputs := rest } := by
  simp [State.popInput, h]

/-- Taking a sample off an empty list leaves the state as it is. -/
theorem popInput_nil {s : State} (h : s.inputs = []) : s.popInput = s :=
  State.ext_fields rfl rfl rfl rfl (by simp [h]) rfl

theorem step_cons_cmd {s : State} {x : PortSample} {rest : List PortSample} (h : s.inputs = x :: rest)
    (hr : x.rst = false) : step s = exec (decode x.cmd) { s with inputs := rest } := by
  have hx : s.presented = x := s.presented_cons h
  rw [step_cmd (hx ▸ hr), hx, popInput_cons h]

theorem step_cons_rst {s : State} {x : PortSample} {rest : List PortSample} (h : s.inputs = x :: rest)
    (hr : x.rst = true) : step s = .next { State.reset with inputs := rest } := by
  have hx : s.presented = x := s.presented_cons h
  rw [step_rst (hx ▸ hr), popInput_cons h]
  rfl

theorem decode_idleSample : decode idleSample.cmd = .idle 0#8 := by decide

theorem step_nil {s : State} (h : s.inputs = []) : step s = exec (.idle 0#8) s := by
  have hx : s.presented = idleSample := s.presented_nil h
  rw [step_cmd (by rw [hx]; rfl), hx, decode_idleSample, popInput_nil h]

/-- A table word is a command when it fits the command port, and then it is the one the decoder reads there. -/
theorem decodeTableWord_eq_some_iff {nbits w : Nat} {i : Instr} :
    decodeTableWord nbits w = some i ↔
      tableWord nbits w < 1024 ∧ decode (BitVec.ofNat 10 (tableWord nbits w)) = i := by
  by_cases h : tableWord nbits w < 1024 <;> simp [decodeTableWord, decodeNat, h]

/-- The table word stands in place of the sample that was to come first. -/
theorem withFetchWord_eq_drive (s : State) (nbits w : Nat) :
    s.withFetchWord nbits w = s.popInput.drive { rst := false, cmd := BitVec.ofNat 10 (tableWord nbits w) } := rfl

/-- Settles O1: the sample on the ports is the first listed one, or with none listed the word of an `IDLE`. -/
theorem stepRunsDecodedCommand : Obligations.StepRunsDecodedCommand :=
  ⟨fun _ _ _ => step_cons_cmd, fun _ => step_nil⟩

/-- Settles O2: `rst` is tested before the word is decoded, and a reset step leaves the launch state's registers. -/
theorem resetStepRestoresEveryRegister : Obligations.ResetStepRestoresEveryRegister :=
  fun _ _ _ h =>
    ⟨_, step_cons_rst h rfl, Memory.read_nil, State.reset_cnt, State.reset_lastId, State.reset_led, State.reset_rsp, rfl⟩

/-- Settles O4: the port carries the very word that `decodeTableWord` decodes, with `rst` low. -/
theorem fetchWordRunsInTheComingStep : Obligations.FetchWordRunsInTheComingStep := by
  intro s nbits w i h
  obtain ⟨-, hi⟩ := decodeTableWord_eq_some_iff.mp h
  rw [withFetchWord_eq_drive, step_drive_cmd _ rfl, hi]
  rfl

/-- Settles O36: the frame store is empty, every register holds the value the invariant asks of `cnt == 0`, and the response
is NONE. -/
theorem invariantHoldsAtReset : Obligations.InvariantHoldsAtReset :=
  inv_reset

end Sys2Proof.Machine
end
